-- ==== Sys2Proof/Word.lean ====
section
/-! DEFINITION. The words of the machine: bytes, 16-bit words, 12-bit address immediates and register numbers (00_scope.md R7, 10_state.md R20, 30_encoding.md R82). -/

namespace Sys2Proof

/-- An 8-bit value: a general register, a timer, a byte of memory (R20, R27, R30). -/
abbrev Byte := BitVec 8

/-- A 16-bit value: the instruction word, `I`, `pc`, a return address (R22, R23, R26, R80). -/
abbrev Word := BitVec 16

/-- The 12-bit address immediate `NNN` (R82). -/
abbrev Addr12 := BitVec 12

/-- The number of a general register, 0 to 15 (R20): the X or Y nibble. -/
abbrev Reg := Fin 16

/-- The glyph table `GLYPH`: 80 bytes, 16 glyphs of 5 rows (10_state.md R31). -/
abbrev Glyph := Vector Byte 80

end Sys2Proof
end

