-- ==== Sys2Proof/Config.lean ====
section
/-! DEFINITION. The sizes the spec fixes (00_scope.md R5) and the free value it leaves open (00_scope.md R6). -/

namespace Sys2Proof.Config

/-- Bytes of memory, addresses 0x000 to 0xFFF (R5, R51). -/
def memSize : Nat := 4096

/-- Bytes of the glyph table (R5, R31). -/
def glyphSize : Nat := 80

/-- Where `load` writes its first byte (R5, R203). -/
def loadBase : Nat := 0x200

/-- The program counter after reset (R5, R36). -/
def resetPc : Word := 0x200

/-- The longest program `load` accepts, 4096 - 0x200 = 3584 bytes (R5, R203). -/
def maxLoad : Nat := 3584

/-- FREE VALUE. The random byte of `CXNN` in a step that was given none, by the number of such bytes drawn before
(42_alu.md R131; 00_scope.md R6: "a free draw under no law"). No body: nothing in Lean knows one of its values.
DESIGN CHOICE, log entry 2; safe. -/
opaque randomByte : Nat → Byte

end Sys2Proof.Config
end

