-- ==== Sys2Proof/Syntax.lean ====
section
/-! DEFINITION. The 35 instructions of 30_encoding.md R85, one constructor per row of spec/opcode_table.json. -/

namespace Sys2Proof

/-- The instruction set (R85). Operands have the widths of R82: `x`, `y` the register nibbles, `n` the sprite height,
`nn` the 8-bit immediate, `nnn` the 12-bit address. The ignored nibble of `8XY6` and `8XYE` is no operand (R92). -/
inductive Instr where
  /-- `0000` NOP (R100) -/
  | nop
  /-- `00E0` CLS (R150) -/
  | cls
  /-- `00EE` RET (R101) -/
  | ret
  /-- `1NNN` JP nnn (R102) -/
  | jp (nnn : Addr12)
  /-- `2NNN` CALL nnn (R103) -/
  | call (nnn : Addr12)
  /-- `3XNN` SE Vx, nn (R110) -/
  | seImm (x : Reg) (nn : Byte)
  /-- `4XNN` SNE Vx, nn (R111) -/
  | sneImm (x : Reg) (nn : Byte)
  /-- `5XY0` SE Vx, Vy (R112) -/
  | seReg (x y : Reg)
  /-- `6XNN` LD Vx, nn (R120) -/
  | ldImm (x : Reg) (nn : Byte)
  /-- `7XNN` ADD Vx, nn (R121) -/
  | addImm (x : Reg) (nn : Byte)
  /-- `8XY0` LD Vx, Vy (R122) -/
  | ldReg (x y : Reg)
  /-- `8XY1` OR Vx, Vy (R123) -/
  | orReg (x y : Reg)
  /-- `8XY2` AND Vx, Vy (R124) -/
  | andReg (x y : Reg)
  /-- `8XY3` XOR Vx, Vy (R125) -/
  | xorReg (x y : Reg)
  /-- `8XY4` ADD Vx, Vy (R126) -/
  | addReg (x y : Reg)
  /-- `8XY5` SUB Vx, Vy (R127) -/
  | subReg (x y : Reg)
  /-- `8X_6` SHR Vx (R128) -/
  | shr (x : Reg)
  /-- `8XY7` SUBN Vx, Vy (R129) -/
  | subnReg (x y : Reg)
  /-- `8X_E` SHL Vx (R130) -/
  | shl (x : Reg)
  /-- `9XY0` SNE Vx, Vy (R113) -/
  | sneReg (x y : Reg)
  /-- `ANNN` LD I, nnn (R140) -/
  | ldI (nnn : Addr12)
  /-- `BNNN` JP V0, nnn (R104) -/
  | jpV0 (nnn : Addr12)
  /-- `CXNN` RND Vx, nn (R131) -/
  | rnd (x : Reg) (nn : Byte)
  /-- `DXYN` DRW Vx, Vy, n (R151) -/
  | drw (x y : Reg) (n : Fin 16)
  /-- `EX9E` SKP Vx (R160) -/
  | skp (x : Reg)
  /-- `EXA1` SKNP Vx (R161) -/
  | sknp (x : Reg)
  /-- `FX07` LD Vx, DT (R163) -/
  | ldVxDT (x : Reg)
  /-- `FX0A` LD Vx, K (R162) -/
  | ldVxK (x : Reg)
  /-- `FX15` LD DT, Vx (R164) -/
  | ldDTVx (x : Reg)
  /-- `FX18` LD ST, Vx (R165) -/
  | ldSTVx (x : Reg)
  /-- `FX1E` ADD I, Vx (R141) -/
  | addIVx (x : Reg)
  /-- `FX29` LD F, Vx (R142) -/
  | ldFVx (x : Reg)
  /-- `FX33` LD B, Vx (R143) -/
  | ldBVx (x : Reg)
  /-- `FX55` LD [I], Vx (R144) -/
  | ldMemVx (x : Reg)
  /-- `FX65` LD Vx, [I] (R145) -/
  | ldVxMem (x : Reg)
  deriving DecidableEq, Repr

end Sys2Proof
end

