-- ==== Sys2Proof/WellFormed.lean ====
section
/-! DEFINITION. Which words are well-formed instructions: the opcode map of 30_encoding.md R85 as rows of mask and match.
A term of `Instr` cannot be ill-formed (its fields have the widths of R82, and R93 admits every operand value), so what
well-formedness checks is the WORD. -/

namespace Sys2Proof

/-- One row of the opcode map: a word `w` belongs to it iff `w &&& mask = bits` (R85). -/
structure OpRow where
  mask : Word
  bits : Word
  deriving DecidableEq, Repr

/-- Whether a word belongs to a row (R85: "a word `w` is the instruction iff `w & mask = match`"). -/
def OpRow.fits (r : OpRow) (w : Word) : Bool := w &&& r.mask == r.bits

/-- The row of an instruction, in the order of R85. -/
def Instr.row : Instr → OpRow
  | .nop => ⟨0xFFFF, 0x0000⟩
  | .cls => ⟨0xFFFF, 0x00E0⟩
  | .ret => ⟨0xFFFF, 0x00EE⟩
  | .jp _ => ⟨0xF000, 0x1000⟩
  | .call _ => ⟨0xF000, 0x2000⟩
  | .seImm _ _ => ⟨0xF000, 0x3000⟩
  | .sneImm _ _ => ⟨0xF000, 0x4000⟩
  | .seReg _ _ => ⟨0xF00F, 0x5000⟩
  | .ldImm _ _ => ⟨0xF000, 0x6000⟩
  | .addImm _ _ => ⟨0xF000, 0x7000⟩
  | .ldReg _ _ => ⟨0xF00F, 0x8000⟩
  | .orReg _ _ => ⟨0xF00F, 0x8001⟩
  | .andReg _ _ => ⟨0xF00F, 0x8002⟩
  | .xorReg _ _ => ⟨0xF00F, 0x8003⟩
  | .addReg _ _ => ⟨0xF00F, 0x8004⟩
  | .subReg _ _ => ⟨0xF00F, 0x8005⟩
  | .shr _ => ⟨0xF00F, 0x8006⟩
  | .subnReg _ _ => ⟨0xF00F, 0x8007⟩
  | .shl _ => ⟨0xF00F, 0x800E⟩
  | .sneReg _ _ => ⟨0xF00F, 0x9000⟩
  | .ldI _ => ⟨0xF000, 0xA000⟩
  | .jpV0 _ => ⟨0xF000, 0xB000⟩
  | .rnd _ _ => ⟨0xF000, 0xC000⟩
  | .drw _ _ _ => ⟨0xF000, 0xD000⟩
  | .skp _ => ⟨0xF0FF, 0xE09E⟩
  | .sknp _ => ⟨0xF0FF, 0xE0A1⟩
  | .ldVxDT _ => ⟨0xF0FF, 0xF007⟩
  | .ldVxK _ => ⟨0xF0FF, 0xF00A⟩
  | .ldDTVx _ => ⟨0xF0FF, 0xF015⟩
  | .ldSTVx _ => ⟨0xF0FF, 0xF018⟩
  | .addIVx _ => ⟨0xF0FF, 0xF01E⟩
  | .ldFVx _ => ⟨0xF0FF, 0xF029⟩
  | .ldBVx _ => ⟨0xF0FF, 0xF033⟩
  | .ldMemVx _ => ⟨0xF0FF, 0xF055⟩
  | .ldVxMem _ => ⟨0xF0FF, 0xF065⟩

/-- Rows 1 to 10 of R85. -/
def opcodeRowsFlow : List OpRow :=
  [⟨0xFFFF, 0x0000⟩,
   ⟨0xFFFF, 0x00E0⟩,
   ⟨0xFFFF, 0x00EE⟩,
   ⟨0xF000, 0x1000⟩,
   ⟨0xF000, 0x2000⟩,
   ⟨0xF000, 0x3000⟩,
   ⟨0xF000, 0x4000⟩,
   ⟨0xF00F, 0x5000⟩,
   ⟨0xF000, 0x6000⟩,
   ⟨0xF000, 0x7000⟩]

/-- Rows 11 to 20 of R85. -/
def opcodeRowsAlu : List OpRow :=
  [⟨0xF00F, 0x8000⟩,
   ⟨0xF00F, 0x8001⟩,
   ⟨0xF00F, 0x8002⟩,
   ⟨0xF00F, 0x8003⟩,
   ⟨0xF00F, 0x8004⟩,
   ⟨0xF00F, 0x8005⟩,
   ⟨0xF00F, 0x8006⟩,
   ⟨0xF00F, 0x8007⟩,
   ⟨0xF00F, 0x800E⟩,
   ⟨0xF00F, 0x9000⟩]

/-- Rows 21 to 35 of R85. -/
def opcodeRowsRest : List OpRow :=
  [⟨0xF000, 0xA000⟩,
   ⟨0xF000, 0xB000⟩,
   ⟨0xF000, 0xC000⟩,
   ⟨0xF000, 0xD000⟩,
   ⟨0xF0FF, 0xE09E⟩,
   ⟨0xF0FF, 0xE0A1⟩,
   ⟨0xF0FF, 0xF007⟩,
   ⟨0xF0FF, 0xF00A⟩,
   ⟨0xF0FF, 0xF015⟩,
   ⟨0xF0FF, 0xF018⟩,
   ⟨0xF0FF, 0xF01E⟩,
   ⟨0xF0FF, 0xF029⟩,
   ⟨0xF0FF, 0xF033⟩,
   ⟨0xF0FF, 0xF055⟩,
   ⟨0xF0FF, 0xF065⟩]

/-- The opcode map of R85, all 35 rows in its order. -/
def opcodeTable : List OpRow := opcodeRowsFlow ++ opcodeRowsAlu ++ opcodeRowsRest

/-- A word is a well-formed instruction iff some row of the map has it (R85, R87). -/
def wellFormedWord (w : Word) : Bool := opcodeTable.any fun r => r.fits w

end Sys2Proof
end

