-- ==== Sys2Proof/Machine/Memory.lean ====
section
/-! DEFINITION. Memory as plain data: the bytes that differ from the reset contents, in one canonical form
(20_memory.md R50 to R56, 10_state.md R27, R31). -/

namespace Sys2Proof.Machine

/-- The 4096-byte memory: a sorted list of (address, byte), holding no byte that an unlisted address already reads as. -/
abbrev Memory := List Host.Cell

/-- Glyphs 0 to 7 of the customary table of 10_state.md R31. -/
def defaultGlyphsLow : List Byte :=
  [0xF0, 0x90, 0x90, 0x90, 0xF0,
   0x20, 0x60, 0x20, 0x20, 0x70,
   0xF0, 0x10, 0xF0, 0x80, 0xF0,
   0xF0, 0x10, 0xF0, 0x10, 0xF0,
   0x90, 0x90, 0xF0, 0x10, 0x10,
   0xF0, 0x80, 0xF0, 0x10, 0xF0,
   0xF0, 0x80, 0xF0, 0x90, 0xF0,
   0xF0, 0x10, 0x20, 0x40, 0x40]

/-- Glyphs 8 to F of the customary table of 10_state.md R31. -/
def defaultGlyphsHigh : List Byte :=
  [0xF0, 0x90, 0xF0, 0x90, 0xF0,
   0xF0, 0x90, 0xF0, 0x10, 0xF0,
   0xF0, 0x90, 0xF0, 0x90, 0x90,
   0xE0, 0x90, 0xE0, 0x90, 0xE0,
   0xF0, 0x80, 0x80, 0x80, 0xF0,
   0xE0, 0x90, 0x90, 0x90, 0xE0,
   0xF0, 0x80, 0xF0, 0x80, 0xF0,
   0xF0, 0x80, 0xF0, 0x80, 0x80]

/-- The default of the parameter `GLYPH` (00_scope.md R6, 10_state.md R31).
PRESUMED, log entry 3: general knowledge, not in the source; unsafe for a claim that reads these bytes. -/
def defaultGlyph : Glyph := ⟨(defaultGlyphsLow ++ defaultGlyphsHigh).toArray, rfl⟩

/-- What an address that is not listed reads as: the reset contents, `GLYPH[a]` for `a` below 80 and 0x00 from there on
(10_state.md R36, 20_memory.md R56). -/
def Memory.unlisted (g : Glyph) (a : Nat) : Byte := if h : a < 80 then g[a] else 0

/-- The byte at an address. -/
def Memory.read (g : Glyph) : Memory → Nat → Byte
  | [], a => Memory.unlisted g a
  | (b, v) :: m, a => if a = b then v else Memory.read g m a

/-- A cell in front of a memory, unless the address already reads so when it is unlisted. -/
def Memory.cons (g : Glyph) (a : Nat) (v : Byte) (m : Memory) : Memory :=
  if v = Memory.unlisted g a then m else (a, v) :: m

/-- One byte written; keeps the canonical form. -/
def Memory.write (g : Glyph) : Memory → Nat → Byte → Memory
  | [], a, v => Memory.cons g a v []
  | (b, w) :: m, a, v =>
    if a < b then Memory.cons g a v ((b, w) :: m)
    else if a = b then Memory.cons g a v m
    else (b, w) :: Memory.write g m a v

/-- The bytes at `a`, `a + 1`, ..., in ascending order (20_memory.md R60). -/
def Memory.readBytes (g : Glyph) (m : Memory) (a : Nat) : Nat → List Byte
  | 0 => []
  | n + 1 => Memory.read g m a :: Memory.readBytes g m (a + 1) n

/-- Bytes written at `a`, `a + 1`, ..., in ascending order (20_memory.md R60). -/
def Memory.writeBytes (g : Glyph) (m : Memory) (a : Nat) : List Byte → Memory
  | [] => m
  | v :: vs => Memory.writeBytes g (Memory.write g m a v) (a + 1) vs

/-- The canonical form from address `lo` on: addresses strictly rising and below 4096, and no entry equal to what its
address reads as when it is unlisted. -/
def Memory.wfFrom (g : Glyph) : Nat → Memory → Bool
  | _, [] => true
  | lo, (a, v) :: m =>
    decide (lo ≤ a) && decide (a < Config.memSize) && decide (v ≠ Memory.unlisted g a) && Memory.wfFrom g (a + 1) m

/-- The canonical form of a memory. -/
def Memory.wf (g : Glyph) (m : Memory) : Bool := Memory.wfFrom g 0 m

end Sys2Proof.Machine
end

