-- ==== Sys2Proof/Machine/State.lean ====
section
/-! DEFINITION. The state of the machine (10_state.md), the reasons it can stop, and the state after reset (R36). -/

namespace Sys2Proof.Machine

/-- The seven kinds of an out-of-range index (60_exceptions.md R172), in the order of their codes 1 to 7. -/
inductive AccessKind where
  /-- a `step` with `pc` above 4094 -/
  | fetch
  /-- `DXYN`, `FX65`: a byte above address 4095 would be read -/
  | memRead
  /-- `FX33`, `FX55`: a byte above address 4095 would be written -/
  | memWrite
  /-- `2NNN` with sixteen return addresses on the stack -/
  | stackOverflow
  /-- `00EE` with an empty stack -/
  | stackUnderflow
  /-- `EX9E`, `EXA1` with `V[X]` above 15 -/
  | keyIndex
  /-- `load` of more than 3584 bytes -/
  | loadSize
  deriving DecidableEq, Repr

/-- The two fault classes (60_exceptions.md R170). A fault is TAKEN: it is latched in `State.fault` by
`Machine.takeFault` (R173), a next state in which nothing else has changed; no step of this model ends in
`Host.Outcome.fault` (log entry 1; safe: the latch is never a successful end). -/
inductive Fault where
  /-- Raised by `step` when the fetched word matches none of the 35 patterns (R171); safe, log entry 1. -/
  | illegalInstruction (word : Word)
  /-- Raised by `step`, `DXYN`, `FX65`, `FX33`, `FX55`, `2NNN`, `00EE`, `EX9E`, `EXA1` and `load` for an index outside
  its storage (R172); `value` is the natural number of R172's table; safe, log entries 1 and 11. -/
  | addressOutOfRange (kind : AccessKind) (value : Nat)
  deriving DecidableEq, Repr

/-- Why a step has no meaning. -/
inductive Refusal where
  /-- Raised by an arm of `exec` whose instruction has no meaning yet; no arm raises it; safe. -/
  | notModelled (mnemonic : String)
  deriving DecidableEq, Repr

/-- The framebuffer: 32 rows of 64 pixels, `fb[y][x]`, true is on (10_state.md R29). -/
abbrev FrameBuffer := Vector (Vector Bool 64) 32

/-- The state: the eleven components of 10_state.md R20 to R32, and two fields of the model's own. -/
@[ext]
structure State where
  /-- the general registers `V[0]` to `V[15]`; `V[15]` is VF (R20, R21) -/
  V : Vector Byte 16
  /-- the index register (R22) -/
  I : Word
  /-- the program counter (R23) -/
  pc : Word
  /-- the stack pointer, 0 to 16: how many return addresses are on the stack (R25) -/
  sp : Fin 17
  /-- the call stack (R26) -/
  stack : Vector Word 16
  /-- the memory (R27) -/
  mem : Memory
  /-- the keypad flags, true is pressed (R28) -/
  key : Vector Bool 16
  /-- the framebuffer (R29) -/
  fb : FrameBuffer
  /-- the delay timer (R30) -/
  DT : Byte
  /-- the sound timer (R30) -/
  ST : Byte
  /-- the fault latch (R32) -/
  fault : Option Fault
  /-- the parameter `GLYPH` (R31): the model's own field, written by nothing; log entry 3 -/
  glyph : Glyph
  /-- how many free random bytes `CXNN` has drawn: the model's own field, unused in a step given its byte; log entry 2 -/
  draws : Nat
  deriving DecidableEq, Repr

/-- An all-off framebuffer (R29, R150). -/
def blankScreen : FrameBuffer := Vector.replicate 32 (Vector.replicate 64 false)

/-- The state right after reset (10_state.md R36). `glyph` is the default table (PRESUMED, log entry 3) and `draws` is 0
(DESIGN CHOICE, log entry 2). -/
def State.reset : State where
  V := Vector.replicate 16 0
  I := 0
  pc := Config.resetPc
  sp := 0
  stack := Vector.replicate 16 0
  mem := []
  key := Vector.replicate 16 false
  fb := blankScreen
  DT := 0
  ST := 0
  fault := none
  glyph := defaultGlyph
  draws := 0

end Sys2Proof.Machine
end

