-- ==== Sys2Proof/Machine/Ops.lean ====
section
/-! DEFINITION. The named operations over memory, registers and the latch: every meaning is written with these. -/

namespace Sys2Proof.Machine

/-- What a step answers. -/
abbrev Result := Host.Outcome State Fault Refusal

/-- `V[x] <- b` (00_scope.md R8, 10_state.md R20). -/
def State.setV (s : State) (x : Reg) (b : Byte) : State := { s with V := s.V.set x b }

/-- `I <- w` (R22). -/
def State.setI (s : State) (w : Word) : State := { s with I := w }

/-- `pc <- w` (R9, R23). -/
def State.setPc (s : State) (w : Word) : State := { s with pc := w }

/-- `DT <- b` (R30). -/
def State.setDT (s : State) (b : Byte) : State := { s with DT := b }

/-- `ST <- b` (R30). -/
def State.setST (s : State) (b : Byte) : State := { s with ST := b }

/-- The framebuffer replaced (R29). -/
def State.setFb (s : State) (f : FrameBuffer) : State := { s with fb := f }

/-- `MemRead(a, 1)` for an address that has been checked (R9, 20_memory.md R57). -/
def State.readMem (s : State) (a : Nat) : Byte := Memory.read s.glyph s.mem a

/-- The `n` bytes from address `a` on, in ascending order (R60). -/
def State.readBytes (s : State) (a n : Nat) : List Byte := Memory.readBytes s.glyph s.mem a n

/-- `MemWrite` of a run of bytes from address `a` on, in ascending order, once the range has been checked (R9, R57). -/
def State.storeBytes (s : State) (a : Nat) (bs : List Byte) : State :=
  { s with mem := Memory.writeBytes s.glyph s.mem a bs }

/-- The fault latched, nothing else changed. -/
def State.latch (s : State) (f : Fault) : State := { s with fault := some f }

/-- TAKING A FAULT (60_exceptions.md R173): none of the operation's writes takes effect, so `pc` still holds the
instruction's own address; `fault` is set; control goes nowhere (no vector, no saved state, no mode). There is no
return from it: only `reset` clears the latch (R175). Log entry 1. -/
def takeFault (f : Fault) (s : State) : Result := .next (s.latch f)

/-- Whether the core runs: no fault is latched (R174, R176). -/
def State.running (s : State) : Bool := s.fault.isNone

/-- `npc = cia + 2`, the address of the next instruction in memory (00_scope.md R8); log entry 8. -/
def State.npc (s : State) : Word := s.pc + 2

/-- The end of an instruction that goes on in memory order: `pc <- npc` (10_state.md R24). -/
def advance (cia : State) (s : State) : Result := .next (s.setPc cia.npc)

/-- A skip (41_skip.md R114): `pc <- npc + 2` if the condition holds, else `pc <- npc`. -/
def skipIf (c : Bool) (s : State) : Result := .next (s.setPc (if c then s.npc + 2 else s.npc))

/-- A range of addresses checked before the first access (20_memory.md R57): `last` is the highest address of the
range, a natural number. -/
def checkRange (kind : AccessKind) (last : Nat) (s : State) (access : Result) : Result :=
  if last > 4095 then takeFault (.addressOutOfRange kind last) s else access

/-- Push `ret` on the call stack (10_state.md R26, 40_flow.md R103): `stack[sp] <- ret; sp <- sp + 1`. -/
def State.push (s : State) (ret : Word) (room : s.sp.val < 16) : State :=
  { s with stack := s.stack.set s.sp.val ret, sp := ⟨s.sp.val + 1, by omega⟩ }

/-- Pop the call stack (R26, R101): `sp <- sp - 1`; the slot keeps its value. -/
def State.pop (s : State) : State := { s with sp := ⟨s.sp.val - 1, by omega⟩ }

/-- The value a pop gives: `stack[sp - 1]` (R101). -/
def State.top (s : State) (_nonempty : s.sp.val ≠ 0) : Word := s.stack[s.sp.val - 1]'(by omega)

/-- Consecutive registers written from `V[k]` on, in ascending order (43_index_memory.md R145). -/
def loadRegs (V : Vector Byte 16) (k : Nat) : List Byte → Vector Byte 16
  | [] => V
  | b :: bs => loadRegs (V.setIfInBounds k b) (k + 1) bs

/-- The numeric code of a kind of R172. -/
def AccessKind.code : AccessKind → Nat
  | .fetch => 1
  | .memRead => 2
  | .memWrite => 3
  | .stackOverflow => 4
  | .stackUnderflow => 5
  | .keyIndex => 6
  | .loadSize => 7

/-- The numeric code of a fault class of R170. -/
def Fault.code : Fault → Nat
  | .illegalInstruction _ => 1
  | .addressOutOfRange _ _ => 2

end Sys2Proof.Machine
end

