-- ==== Sys2Proof/Machine/Operands.lean ====
section
/-! DEFINITION. The operand forms: zero extension, the effective address, the key index, the keypad scan, decimal digits. -/

namespace Sys2Proof.Machine

/-- `zext_16` of an address immediate (30_encoding.md R82: "zero-extended to 16 bits"). -/
def zextAddr (nnn : Addr12) : Word := nnn.zeroExtend 16

/-- `zext_16` of a byte (00_scope.md R7). -/
def zextByte (b : Byte) : Word := b.zeroExtend 16

/-- The effective address `I + offset`, a natural number (20_memory.md R57, 43_index_memory.md R146). -/
def State.effAddr (s : State) (offset : Nat) : Nat := s.I.toNat + offset

/-- The register number of VF (10_state.md R21). -/
def vf : Reg := 15

/-- A key number, if the byte names one of the sixteen keys (45_keypad_timers.md R160). -/
def keyIndex (k : Byte) : Option (Fin 16) := if h : k.toNat < 16 then some ⟨k.toNat, h⟩ else none

/-- The lowest pressed key (45_keypad_timers.md R162: "the least such k"). -/
def lowestPressed (key : Vector Bool 16) : Option Nat := key.toList.findIdx? fun pressed => pressed

/-- The hundreds, tens and ones of a byte, most significant first (43_index_memory.md R143, 20_memory.md R52). -/
def decimalDigits (v : Byte) : List Byte :=
  [BitVec.ofNat 8 (v.toNat / 100), BitVec.ofNat 8 (v.toNat / 10 % 10), BitVec.ofNat 8 (v.toNat % 10)]

/-- The address of the 5-byte sprite of a glyph: five times the whole byte (43_index_memory.md R142). -/
def glyphAddr (v : Byte) : Word := 5 * zextByte v

/-- The registers `V[0]` to `V[x]` in ascending order (43_index_memory.md R144). -/
def State.regsUpTo (s : State) (x : Reg) : List Byte := s.V.toList.take (x.val + 1)

/-- The random byte the next `CXNN` draws in a step that was given none (60_exceptions.md R192): a free value, log entry 2. -/
def State.rand (s : State) : Byte := Config.randomByte s.draws

/-- The random byte counted as used; log entry 2. -/
def State.useRand (s : State) : State := { s with draws := s.draws + 1 }

end Sys2Proof.Machine
end

