-- ==== Sys2Proof/Machine/Flags.lean ====
section
/-! DEFINITION. The values VF takes (10_state.md R21, 42_alu.md R126 to R130) and the order of the two writes (R132). -/

namespace Sys2Proof.Machine

/-- A flag as a byte: 0x00 or 0x01 (R21). -/
def flagByte (c : Bool) : Byte := if c then 1 else 0

/-- The sum of two bytes in nine bits (R126: "zext_9"). -/
def sum9 (a b : Byte) : BitVec 9 := a.zeroExtend 9 + b.zeroExtend 9

/-- Carry out of bit 7 (R126). -/
def carryOut (a b : Byte) : Bool := (sum9 a b).getLsbD 8

/-- No borrow in `a - b`: `a >= b` (R127, R129). -/
def noBorrow (a b : Byte) : Bool := decide (b.toNat ≤ a.toNat)

/-- The bit a right shift drops: bit 0 (R128). -/
def shiftedOutRight (a : Byte) : Bool := a.getLsbD 0

/-- The bit a left shift drops: bit 7 (R130). -/
def shiftedOutLeft (a : Byte) : Bool := a.getLsbD 7

/-- A result and its flag: `V[X]` is written, then VF, so with `X = 15` the flag stays (R132; log entry 10). -/
def State.setResult (s : State) (x : Reg) (r : Byte) (flag : Bool) : State :=
  (s.setV x r).setV vf (flagByte flag)

end Sys2Proof.Machine
end

