-- ==== Sys2Proof/Machine/Alu.lean ====
section
/-! DEFINITION. Register load, arithmetic, logic, shift and random (42_alu.md). None of these can fault. -/

namespace Sys2Proof.Machine

/-- `6XNN` LD Vx, nn (R120). -/
def execLdImm (x : Reg) (nn : Byte) (s : State) : Result := advance s (s.setV x nn)

/-- `7XNN` ADD Vx, nn (R121): wraps, sets no flag. -/
def execAddImm (x : Reg) (nn : Byte) (s : State) : Result := advance s (s.setV x (s.V[x] + nn))

/-- `8XY0` LD Vx, Vy (R122). -/
def execLdReg (x y : Reg) (s : State) : Result := advance s (s.setV x s.V[y])

/-- `8XY1` OR Vx, Vy (R123): VF unchanged. -/
def execOrReg (x y : Reg) (s : State) : Result := advance s (s.setV x (s.V[x] ||| s.V[y]))

/-- `8XY2` AND Vx, Vy (R124): VF unchanged. -/
def execAndReg (x y : Reg) (s : State) : Result := advance s (s.setV x (s.V[x] &&& s.V[y]))

/-- `8XY3` XOR Vx, Vy (R125): VF unchanged. -/
def execXorReg (x y : Reg) (s : State) : Result := advance s (s.setV x (s.V[x] ^^^ s.V[y]))

/-- `8XY4` ADD Vx, Vy (R126): VF is the carry. -/
def execAddReg (x y : Reg) (s : State) : Result :=
  advance s (s.setResult x ((sum9 s.V[x] s.V[y]).truncate 8) (carryOut s.V[x] s.V[y]))

/-- `8XY5` SUB Vx, Vy (R127): VF is 1 when there is no borrow in `V[X] - V[Y]`. -/
def execSubReg (x y : Reg) (s : State) : Result :=
  advance s (s.setResult x (s.V[x] - s.V[y]) (noBorrow s.V[x] s.V[y]))

/-- `8XY6` SHR Vx (R128): in place on `V[X]`, logical; VF is the old bit 0. -/
def execShr (x : Reg) (s : State) : Result :=
  advance s (s.setResult x (s.V[x] >>> 1) (shiftedOutRight s.V[x]))

/-- `8XY7` SUBN Vx, Vy (R129): VF is 1 when there is no borrow in `V[Y] - V[X]`. -/
def execSubnReg (x y : Reg) (s : State) : Result :=
  advance s (s.setResult x (s.V[y] - s.V[x]) (noBorrow s.V[y] s.V[x]))

/-- `8XYE` SHL Vx (R130): in place on `V[X]`; VF is the old bit 7. -/
def execShl (x : Reg) (s : State) : Result :=
  advance s (s.setResult x (s.V[x] <<< 1) (shiftedOutLeft s.V[x]))

/-- `V[X] <- rand & NN` for a given random byte (R131). -/
def rndWith (rand : Byte) (x : Reg) (nn : Byte) (s : State) : State := s.setV x (rand &&& nn)

/-- `CXNN` RND Vx, nn (R131) in a step that was given the byte `rand` (60_exceptions.md R192). -/
def rndGiven (rand : Byte) (x : Reg) (nn : Byte) (s : State) : Result := advance s (rndWith rand x nn s)

/-- `CXNN` RND Vx, nn (R131) in a step that was given no byte: a fresh free one is drawn (log entry 2). -/
def execRnd (x : Reg) (nn : Byte) (s : State) : Result := rndGiven s.rand x nn s.useRand

end Sys2Proof.Machine
end

