-- ==== Sys2Proof/Machine/Display.lean ====
section
/-! DEFINITION. The display (44_display.md): CLS and the sprite draw DRW. -/

namespace Sys2Proof.Machine

/-- A draw in progress: the framebuffer and whether a pixel has gone from on to off (R151). -/
structure Canvas where
  fb : FrameBuffer
  collision : Bool
  deriving DecidableEq, Repr

/-- One set sprite bit at the natural coordinates `(x, y)` (R151): the pixel `(x mod 64, y mod 32)` is XORed, and a pixel
that was on is a collision. -/
def plot (c : Canvas) (x y : Nat) : Canvas :=
  have hx : x % 64 < 64 := Nat.mod_lt x (by decide)
  have hy : y % 32 < 32 := Nat.mod_lt y (by decide)
  let row := c.fb[y % 32]
  { fb := c.fb.set (y % 32) (row.set (x % 64) (!row[x % 64])), collision := c.collision || row[x % 64] }

/-- One row of a sprite, its byte most significant bit first: bit 7 is column 0 (R151). -/
def drawRow (px y : Nat) (b : Byte) (c : Canvas) : Canvas :=
  (List.range 8).foldl (fun c col => if b.getLsbD (7 - col) then plot c (px + col) y else c) c

/-- The rows of a sprite, in ascending order from `y` on (R151). -/
def drawRows (px : Nat) : Nat → List Byte → Canvas → Canvas
  | _, [], c => c
  | y, b :: bs, c => drawRows px (y + 1) bs (drawRow px y b c)

/-- The sprite's bytes drawn at `(V[X], V[Y])`, and VF set to the collision, last (R151). -/
def State.drawn (s : State) (x y : Reg) (sprite : List Byte) : State :=
  let c := drawRows s.V[x].toNat s.V[y].toNat sprite { fb := s.fb, collision := false }
  (s.setFb c.fb).setV vf (flagByte c.collision)

/-- `00E0` CLS (R150). -/
def execCls (s : State) : Result := advance s (s.setFb blankScreen)

/-- `DXYN` DRW Vx, Vy, n (R151). With `n = 0` no address is checked, no pixel changes and VF becomes 0. -/
def execDrw (x y : Reg) (n : Fin 16) (s : State) : Result :=
  if n.val = 0 then advance s (s.drawn x y [])
  else
    checkRange .memRead (s.effAddr (n.val - 1)) s
      (advance s (s.drawn x y (s.readBytes (s.effAddr 0) n.val)))

end Sys2Proof.Machine
end

