-- ==== Sys2Proof/Machine/Flow.lean ====
section
/-! DEFINITION. Control transfer (40_flow.md): NOP, RET, JP, CALL, JP V0. -/

namespace Sys2Proof.Machine

/-- `0000` NOP (R100). -/
def execNop (s : State) : Result := advance s s

/-- `00EE` RET (R101): faults with an empty stack, else pops the return address into `pc`. -/
def execRet (s : State) : Result :=
  if h : s.sp.val = 0 then takeFault (.addressOutOfRange .stackUnderflow 0) s
  else .next (s.pop.setPc (s.top h))

/-- `1NNN` JP nnn (R102). -/
def execJp (nnn : Addr12) (s : State) : Result := .next (s.setPc (zextAddr nnn))

/-- `2NNN` CALL nnn (R103): faults with a full stack, else pushes `npc` and jumps. -/
def execCall (nnn : Addr12) (s : State) : Result :=
  if h : s.sp.val = 16 then takeFault (.addressOutOfRange .stackOverflow 16) s
  else .next ((s.push s.npc (by omega)).setPc (zextAddr nnn))

/-- `BNNN` JP V0, nnn (R104): a 16-bit sum, not reduced to 12 bits. -/
def execJpV0 (nnn : Addr12) (s : State) : Result := .next (s.setPc (zextByte s.V[0] + zextAddr nnn))

end Sys2Proof.Machine
end

