-- ==== Sys2Proof/Machine/IndexMemory.lean ====
section
/-! DEFINITION. The index register and memory (43_index_memory.md): LD I, ADD I, LD F, LD B, LD [I], LD Vx,[I].
Every range is checked before its first access, and none of these changes `I` but the first three. -/

namespace Sys2Proof.Machine

/-- `ANNN` LD I, nnn (R140). -/
def execLdI (nnn : Addr12) (s : State) : Result := advance s (s.setI (zextAddr nnn))

/-- `FX1E` ADD I, Vx (R141): modulo 65536, VF unchanged. -/
def execAddIVx (x : Reg) (s : State) : Result := advance s (s.setI (s.I + zextByte s.V[x]))

/-- `FX29` LD F, Vx (R142): five times the whole byte. -/
def execLdFVx (x : Reg) (s : State) : Result := advance s (s.setI (glyphAddr s.V[x]))

/-- `FX33` LD B, Vx (R143): three decimal digits at `I`, `I + 1`, `I + 2`. -/
def execLdBVx (x : Reg) (s : State) : Result :=
  checkRange .memWrite (s.effAddr 2) s
    (advance s (s.storeBytes (s.effAddr 0) (decimalDigits s.V[x])))

/-- `FX55` LD [I], Vx (R144): `V[0]` to `V[X]` stored from `I` on. -/
def execLdMemVx (x : Reg) (s : State) : Result :=
  checkRange .memWrite (s.effAddr x.val) s
    (advance s (s.storeBytes (s.effAddr 0) (s.regsUpTo x)))

/-- `FX65` LD Vx, [I] (R145): `V[0]` to `V[X]` loaded from `I` on. -/
def execLdVxMem (x : Reg) (s : State) : Result :=
  checkRange .memRead (s.effAddr x.val) s
    (advance s { s with V := loadRegs s.V 0 (s.readBytes (s.effAddr 0) (x.val + 1)) })

end Sys2Proof.Machine
end

