-- ==== Sys2Proof/Machine/KeypadTimers.lean ====
section
/-! DEFINITION. The keypad and timer instructions (45_keypad_timers.md): SKP, SKNP, LD Vx,K, LD Vx,DT, LD DT, LD ST. -/

namespace Sys2Proof.Machine

/-- A skip on the key that `V[x]` names (R160, R161): a value above 15 names no key and faults. -/
def skipOnKey (pressed : Bool) (x : Reg) (s : State) : Result :=
  match keyIndex s.V[x] with
  | none => takeFault (.addressOutOfRange .keyIndex s.V[x].toNat) s
  | some k => skipIf (s.key[k] == pressed) s

/-- `EX9E` SKP Vx (R160). -/
def execSkp (x : Reg) (s : State) : Result := skipOnKey true x s

/-- `EXA1` SKNP Vx (R161). -/
def execSknp (x : Reg) (s : State) : Result := skipOnKey false x s

/-- `FX0A` LD Vx, K (R162): the lowest pressed key into `V[X]`; with none pressed `pc` stays on the instruction and
nothing else changes. -/
def execLdVxK (x : Reg) (s : State) : Result :=
  match lowestPressed s.key with
  | some k => advance s (s.setV x (BitVec.ofNat 8 k))
  | none => .next s

/-- `FX07` LD Vx, DT (R163). -/
def execLdVxDT (x : Reg) (s : State) : Result := advance s (s.setV x s.DT)

/-- `FX15` LD DT, Vx (R164). -/
def execLdDTVx (x : Reg) (s : State) : Result := advance s (s.setDT s.V[x])

/-- `FX18` LD ST, Vx (R165). -/
def execLdSTVx (x : Reg) (s : State) : Result := advance s (s.setST s.V[x])

end Sys2Proof.Machine
end

