-- ==== Sys2Proof/Machine/Skip.lean ====
section
/-! DEFINITION. Conditional skips on registers (41_skip.md): SE, SNE. -/

namespace Sys2Proof.Machine

/-- `3XNN` SE Vx, nn (R110). -/
def execSeImm (x : Reg) (nn : Byte) (s : State) : Result := skipIf (s.V[x] == nn) s

/-- `4XNN` SNE Vx, nn (R111). -/
def execSneImm (x : Reg) (nn : Byte) (s : State) : Result := skipIf (s.V[x] != nn) s

/-- `5XY0` SE Vx, Vy (R112). -/
def execSeReg (x y : Reg) (s : State) : Result := skipIf (s.V[x] == s.V[y]) s

/-- `9XY0` SNE Vx, Vy (R113). -/
def execSneReg (x y : Reg) (s : State) : Result := skipIf (s.V[x] != s.V[y]) s

end Sys2Proof.Machine
end

