-- ==== Sys2Proof/Machine/Fetch.lean ====
section
/-! DEFINITION. Fetching and decoding the instruction at `pc` (20_memory.md R52, R58; 30_encoding.md R84). -/

namespace Sys2Proof.Machine

/-- The word at a checked address, first byte high (R52). -/
def State.wordAt (s : State) (a : Nat) : Word := wordOfBytes (s.readMem a) (s.readMem (a + 1))

/-- The fetch (R58): both bytes must exist; there is no wrap to 0x000. -/
def fetchWord (s : State) : Except Fault Word :=
  if s.pc.toNat > 4094 then .error (.addressOutOfRange .fetch s.pc.toNat) else .ok (s.wordAt s.pc.toNat)

/-- Fetch, then decode (R84, R176): the fault of the fetch comes before that of an illegal word. -/
def fetchInstr (s : State) : Except Fault Instr :=
  match fetchWord s with
  | .error f => .error f
  | .ok w =>
    match decodeWord w with
    | some i => .ok i
    | none => .error (.illegalInstruction w)

/-- One step around the execution of an instruction (R84, R176): ignored while a fault is latched; else fetch, decode,
execute, or the fault of the fetch or of the decoder. -/
def runStep (execute : Instr → Result) (s : State) : Result :=
  match s.running with
  | false => .next s
  | true =>
    match fetchInstr s with
    | .error f => takeFault f s
    | .ok i => execute i

/-- Where `withFetchWord` puts the instruction: at `pc`, or at 0x200 if nothing can be fetched at `pc`; log entry 5. -/
def State.fetchPc (s : State) : Word := if s.pc.toNat > 4094 then Config.resetPc else s.pc

/-- The next instruction's bytes stored at `pc`, with no fault latched, so that the next step runs it; log entry 5. -/
def State.placeInstr (s : State) (bs : List Byte) : State :=
  { s.storeBytes s.fetchPc.toNat bs with pc := s.fetchPc, fault := none }

end Sys2Proof.Machine
end

