-- ==== Sys2Proof/Machine/Step.lean ====
section
/-! DEFINITION. One step with no random byte given (30_encoding.md R84; with a byte: Machine/StepInput.lean), and placing
an instruction for it. -/

namespace Sys2Proof.Machine

/-- One `step` (R84, R176) whose random byte is free: the `step(rand)` of the host for a byte nothing is known of
(log entry 2). -/
def step (s : State) : Host.Outcome State Fault Refusal := runStep (fun i => exec i s) s

/-- The state with an instruction, numbered as spec/opcode_table.json numbers its bits, stored where `step` fetches next;
log entry 5. -/
def State.withFetchWord (s : State) (nbits w : Nat) : State := s.placeInstr (tableBytes nbits w)

end Sys2Proof.Machine
end

