-- ==== Sys2Proof/Machine/HostOps.lean ====
section
/-! DEFINITION. The host operations other than `step` (60_exceptions.md R180 to R188, 70_reset_and_hazards.md R200 to R204)
and what the host can observe. -/

namespace Sys2Proof.Machine

/-- `initialize()`: a machine with a given glyph table, in the reset state (R201). -/
def newVM (g : Glyph) : State := { State.reset with glyph := g }

/-- `reset()` (R200): every piece of the spec's state takes its reset value (R36), whatever it was, the latch included. The
model's own `glyph` (a constant) and `draws` (so that no free byte is drawn twice) stay; log entry 7. -/
def State.resetOp (s : State) : State := { State.reset with glyph := s.glyph, draws := s.draws }

/-- `load(bytes)` (R203, R204): ignored while a fault is latched; more than 3584 bytes fault and write nothing; else the bytes
go to 0x200 upward and nothing else changes. -/
def State.loadOp (s : State) (bytes : List Byte) : State :=
  if s.running then
    if bytes.length > Config.maxLoad then s.latch (.addressOutOfRange .loadSize bytes.length)
    else s.storeBytes Config.loadBase bytes
  else s

/-- `set_key(k, pressed)` (R182): ignored while a fault is latched. -/
def State.setKeyOp (s : State) (k : Fin 16) (pressed : Bool) : State :=
  if s.running then { s with key := s.key.set k pressed } else s

/-- A timer decremented by one, with a floor at 0 (R183). -/
def tickDown (b : Byte) : Byte := if b.toNat > 0 then b - 1 else b

/-- `tick_timers()` (R183): ignored while a fault is latched. -/
def State.tickOp (s : State) : State :=
  if s.running then { s with DT := tickDown s.DT, ST := tickDown s.ST } else s

/-- What `display()` returns (R186): 2048 booleans, row-major, index `64 * y + x`. -/
def State.display (s : State) : List Bool := s.fb.toList.flatMap fun row => row.toList

/-- The level output `tone = (ST != 0)` (R185). -/
def State.tone (s : State) : Bool := s.ST != 0

/-- What the host may observe between operations (R188). -/
structure Observation where
  V : Vector Byte 16
  I : Word
  pc : Word
  sp : Fin 17
  stack : Vector Word 16
  DT : Byte
  ST : Byte
  tone : Bool
  key : Vector Bool 16
  fault : Option Fault
  deriving DecidableEq, Repr

/-- The read-only observation of R188; `mem` is not part of it (20_memory.md R67). -/
def State.observe (s : State) : Observation where
  V := s.V
  I := s.I
  pc := s.pc
  sp := s.sp
  stack := s.stack
  DT := s.DT
  ST := s.ST
  tone := s.tone
  key := s.key
  fault := s.fault

end Sys2Proof.Machine
end

