-- ==== Sys2Proof/Machine/StepInput.lean ====
section
/-! DEFINITION. The host's `step(rand)` with its 8-bit input (30_encoding.md R84, 60_exceptions.md R180, R192): the random
byte is an argument, and only `CXNN` uses it. -/

namespace Sys2Proof.Machine

/-- An instruction executed in a step that was given the byte `rand` (R192: "used only if the instruction executed is
`CXNN` and ignored otherwise"). -/
def execWith (rand : Byte) (i : Instr) (s : State) : Result :=
  match i with
  | .rnd x nn => rndGiven rand x nn s
  | .nop | .cls | .ret | .jp _ | .call _ | .seImm _ _ | .sneImm _ _ | .seReg _ _ | .ldImm _ _ | .addImm _ _ | .ldReg _ _
  | .orReg _ _ | .andReg _ _ | .xorReg _ _ | .addReg _ _ | .subReg _ _ | .shr _ | .subnReg _ _ | .shl _ | .sneReg _ _
  | .ldI _ | .jpV0 _ | .drw _ _ _ | .skp _ | .sknp _ | .ldVxDT _ | .ldVxK _ | .ldDTVx _ | .ldSTVx _ | .addIVx _
  | .ldFVx _ | .ldBVx _ | .ldMemVx _ | .ldVxMem _ => exec i s

/-- `step(rand)` (R84): no field of the model's own is read or written. -/
def stepWith (rand : Byte) (s : State) : Result := runStep (fun i => execWith rand i s) s

end Sys2Proof.Machine
end

