-- ==== Sys2Proof/Machine/Schedule.lean ====
section
/-! DEFINITION. The seven host operations as one input alphabet, and the machine driven by any sequence of them
(60_exceptions.md R180, R181; 70_reset_and_hazards.md R205; log entry 6). -/

namespace Sys2Proof.Machine

/-- The host interface with the inputs of R180's table. A key number is four bits, so it cannot be out of range (R182);
`step` carries its random byte (R192). -/
inductive HostOp where
  | initializeVM
  | reset
  | load (bytes : List Byte)
  | setKey (k : Fin 16) (pressed : Bool)
  | step (rand : Byte)
  | tickTimers
  | display
  deriving DecidableEq, Repr

/-- One host operation, run to completion (R181). `initialize` acts as `reset` does (R201); `display` changes nothing (R186). -/
def perform (op : HostOp) (s : State) : Result :=
  match op with
  | .initializeVM => .next s.resetOp
  | .reset => .next s.resetOp
  | .load bytes => .next (s.loadOp bytes)
  | .setKey k pressed => .next (s.setKeyOp k pressed)
  | .step rand => stepWith rand s
  | .tickTimers => .next s.tickOp
  | .display => .next s

/-- A schedule of the host, each step with its `rand`: the operations one after another, stopping at the first that answers
no next state (R181). -/
def runSchedule : List HostOp → State → Result
  | [], s => .next s
  | op :: ops, s =>
    match perform op s with
    | .next t => runSchedule ops t
    | .fault f => .fault f
    | .refused r => .refused r

end Sys2Proof.Machine
end

