-- ==== Sys2Proof/Safety.lean ====
section
/-! DEFINITION. What claims say of a run: faulted, idle, and the invariants of reachable states
(70_reset_and_hazards.md R210, R211; 10_state.md R24). -/

namespace Sys2Proof.Safety

open Sys2Proof.Machine

/-- No fault is latched: the only states a claim may count as good (60_exceptions.md R173, R174). -/
def Good (s : State) : Prop := s.fault = none

/-- The idle predicate of R211: the word at `pc` is a jump to itself. -/
def Idle (s : State) : Prop :=
  s.fault = none ∧ s.pc.toNat ≤ 4094 ∧ s.wordAt s.pc.toNat = 0x1000 ||| s.pc

/-- The memory is in its canonical form: the representation invariant of the model. -/
def MemoryCanonical (s : State) : Prop := Memory.wf s.glyph s.mem = true

/-- The bounds of R24: `pc` never exceeds 0x10FE and no stack slot exceeds 0x1000, so the 16-bit counter never wraps. -/
def CounterBounded (s : State) : Prop :=
  s.pc.toNat ≤ 0x10FE ∧ ∀ k : Fin 16, s.stack[k].toNat ≤ 0x1000

/-- The sprite of `DXYN` at `(V[x], V[y])` with `n` rows has a set bit for pixel `(k, j)` (44_display.md R151: column `col`
of row `row` is bit `7 - col` of `mem[I + row]` and falls on `((V[x] + col) mod 64, (V[y] + row) mod 32)`). -/
def SpriteCovers (s : State) (x y : Reg) (n : Nat) (j : Fin 32) (k : Fin 64) : Prop :=
  ∃ row col : Nat, row < n ∧ col < 8 ∧ (s.V[x].toNat + col) % 64 = k.val ∧ (s.V[y].toNat + row) % 32 = j.val ∧
    (s.readMem (s.effAddr row)).getLsbD (7 - col) = true

/-- Instructions executed one after another, whatever memory holds; used to state what a sequence of calls and returns
does (95_test_vectors.md S12). -/
def runInstrs : List Instr → State → Result
  | [], s => .next s
  | i :: is, s =>
    match exec i s with
    | .next t => runInstrs is t
    | .fault f => .fault f
    | .refused r => .refused r

/-- How an instruction can fault (60_exceptions.md R172): the fault its own check raises in `s`, if any. Every instruction
has at most one kind of its own (R176). -/
def ownFault (i : Instr) (s : State) : Option Fault :=
  match i with
  | .ret => if s.sp.val = 0 then some (.addressOutOfRange .stackUnderflow 0) else none
  | .call _ => if s.sp.val = 16 then some (.addressOutOfRange .stackOverflow 16) else none
  | .drw _ _ n =>
    if 0 < n.val ∧ 4095 < s.I.toNat + n.val - 1 then
      some (.addressOutOfRange .memRead (s.I.toNat + n.val - 1)) else none
  | .ldVxMem x =>
    if 4095 < s.I.toNat + x.val then some (.addressOutOfRange .memRead (s.I.toNat + x.val)) else none
  | .ldBVx _ => if 4095 < s.I.toNat + 2 then some (.addressOutOfRange .memWrite (s.I.toNat + 2)) else none
  | .ldMemVx x =>
    if 4095 < s.I.toNat + x.val then some (.addressOutOfRange .memWrite (s.I.toNat + x.val)) else none
  | .skp x | .sknp x => if 15 < s.V[x].toNat then some (.addressOutOfRange .keyIndex s.V[x].toNat) else none
  | .nop | .cls | .jp _ | .seImm _ _ | .sneImm _ _ | .seReg _ _ | .ldImm _ _ | .addImm _ _ | .ldReg _ _ | .orReg _ _
  | .andReg _ _ | .xorReg _ _ | .addReg _ _ | .subReg _ _ | .shr _ | .subnReg _ _ | .shl _ | .sneReg _ _ | .ldI _
  | .jpV0 _ | .rnd _ _ | .ldVxDT _ | .ldVxK _ | .ldDTVx _ | .ldSTVx _ | .addIVx _ | .ldFVx _ => none

end Sys2Proof.Safety
end

