-- ==== Sys2Proof/Certificates/Slice0/Obligations.lean ====
section
/-! DEFINITION. The statements for the provers: what the rules of spec/ say the machine does. -/

open Sys2Proof Sys2Proof.Machine Sys2Proof.Safety

/-- For every instruction and every operand value, the decoder reads the encoder's two bytes back, and leaves the bytes after them. -/
def Obligations.DecodeInvertsEncode : Prop :=
    ∀ (i : Instr) (rest : List Byte), decode (encodeBytes i ++ rest) = .ok (i, rest)

/-- R92; that a shift is encoded with the Y nibble 0 is R90's assembler convention, the spec's own decision D11 (log entry 9). A word that decodes to a shift decodes to the same instruction with any Y nibble, and is its encoding with that nibble cleared; every other legal word is exactly the encoding of its instruction. A shift neither reads nor writes a register other than X and VF. -/
def Obligations.OnlyTheShiftsIgnoreANibble : Prop :=
    (∀ (w : Word) (i : Instr), decodeWord w = some i →
      ((∃ x, i = .shr x ∨ i = .shl x) →
        encode i = w &&& 0xFF0F ∧ ∀ v : Word, v &&& 0xFF0F = w &&& 0xFF0F → decodeWord v = some i) ∧
      ((¬ ∃ x, i = .shr x ∨ i = .shl x) → encode i = w)) ∧
    (∀ (x y : Reg) (b : Byte) (s : State), y ≠ x → y ≠ 15 → ∀ i : Instr, i = .shr x ∨ i = .shl x →
      ∃ t, exec i s = .next t ∧ exec i { s with V := s.V.set y b } = .next { t with V := t.V.set y b } ∧
        t.V[y] = s.V[y])

/-- R85: "a word w is the instruction iff w & mask = match. The patterns are pairwise disjoint". -/
def Obligations.DecodeFollowsTheOpcodeMap : Prop :=
    opcodeTable.length = 35 ∧
    (∀ (w : Word) (i : Instr), decodeWord w = some i → i.row ∈ opcodeTable ∧ w &&& i.row.mask = i.row.bits) ∧
    (∀ (w : Word) (r : OpRow), r ∈ opcodeTable → w &&& r.mask = r.bits → ∃ i, decodeWord w = some i ∧ i.row = r) ∧
    (∀ (w : Word) (r q : OpRow), r ∈ opcodeTable → q ∈ opcodeTable →
      w &&& r.mask = r.bits → w &&& q.mask = q.bits → r = q)

/-- R82, format by format; the address immediate is zero-extended to 16 bits. -/
def Obligations.OperandFieldsAreBitsOfTheWord : Prop :=
    (∀ (w : Word) (nnn : Addr12), decodeWord w = some (.jp nnn) ∨ decodeWord w = some (.call nnn) ∨
        decodeWord w = some (.ldI nnn) ∨ decodeWord w = some (.jpV0 nnn) →
      nnn.toNat = w.toNat % 4096 ∧ (zextAddr nnn).toNat = w.toNat % 4096) ∧
    (∀ (w : Word) (x : Reg) (nn : Byte), decodeWord w = some (.seImm x nn) ∨ decodeWord w = some (.sneImm x nn) ∨
        decodeWord w = some (.ldImm x nn) ∨ decodeWord w = some (.addImm x nn) ∨ decodeWord w = some (.rnd x nn) →
      x.val = w.toNat / 256 % 16 ∧ nn.toNat = w.toNat % 256) ∧
    (∀ (w : Word) (x y : Reg), decodeWord w = some (.seReg x y) ∨ decodeWord w = some (.sneReg x y) ∨
        decodeWord w = some (.ldReg x y) ∨ decodeWord w = some (.orReg x y) ∨ decodeWord w = some (.andReg x y) ∨
        decodeWord w = some (.xorReg x y) ∨ decodeWord w = some (.addReg x y) ∨ decodeWord w = some (.subReg x y) ∨
        decodeWord w = some (.subnReg x y) →
      x.val = w.toNat / 256 % 16 ∧ y.val = w.toNat / 16 % 16) ∧
    (∀ (w : Word) (x y : Reg) (n : Fin 16), decodeWord w = some (.drw x y n) →
      x.val = w.toNat / 256 % 16 ∧ y.val = w.toNat / 16 % 16 ∧ n.val = w.toNat % 16) ∧
    (∀ (w : Word) (x : Reg), decodeWord w = some (.shr x) ∨ decodeWord w = some (.shl x) ∨
        decodeWord w = some (.skp x) ∨ decodeWord w = some (.sknp x) ∨ decodeWord w = some (.ldVxDT x) ∨
        decodeWord w = some (.ldVxK x) ∨ decodeWord w = some (.ldDTVx x) ∨ decodeWord w = some (.ldSTVx x) ∨
        decodeWord w = some (.addIVx x) ∨ decodeWord w = some (.ldFVx x) ∨ decodeWord w = some (.ldBVx x) ∨
        decodeWord w = some (.ldMemVx x) ∨ decodeWord w = some (.ldVxMem x) →
      x.val = w.toNat / 256 % 16)

/-- The table of R87, in numbers. -/
def Obligations.IllegalWordsAreExactlyTheListedOnes : Prop :=
    ∀ w : Word, decodeWord w = none ↔
      (w.toNat / 4096 = 0 ∧ w.toNat ≠ 0x000 ∧ w.toNat ≠ 0x0E0 ∧ w.toNat ≠ 0x0EE) ∨
      (w.toNat / 4096 = 5 ∧ w.toNat % 16 ≠ 0) ∨
      (w.toNat / 4096 = 8 ∧ (w.toNat % 16 = 8 ∨ w.toNat % 16 = 9 ∨ w.toNat % 16 = 0xA ∨ w.toNat % 16 = 0xB ∨
        w.toNat % 16 = 0xC ∨ w.toNat % 16 = 0xD ∨ w.toNat % 16 = 0xF)) ∨
      (w.toNat / 4096 = 9 ∧ w.toNat % 16 ≠ 0) ∨
      (w.toNat / 4096 = 0xE ∧ w.toNat % 256 ≠ 0x9E ∧ w.toNat % 256 ≠ 0xA1) ∨
      (w.toNat / 4096 = 0xF ∧ w.toNat % 256 ≠ 0x07 ∧ w.toNat % 256 ≠ 0x0A ∧ w.toNat % 256 ≠ 0x15 ∧
        w.toNat % 256 ≠ 0x18 ∧ w.toNat % 256 ≠ 0x1E ∧ w.toNat % 256 ≠ 0x29 ∧ w.toNat % 256 ≠ 0x33 ∧
        w.toNat % 256 ≠ 0x55 ∧ w.toNat % 256 ≠ 0x65)

/-- Words of 95_test_vectors.md, one or two of each family. -/
def Obligations.WrittenWordsDecode : Prop :=
    decodeWord 0x00EE = some .ret ∧ decodeWord 0x220E = some (.call 0x20E) ∧ decodeWord 0x3A42 = some (.seImm 10 0x42) ∧
    decodeWord 0x8127 = some (.subnReg 1 2) ∧ decodeWord 0x81A6 = some (.shr 1) ∧
    decodeWord 0xD012 = some (.drw 0 1 2) ∧ decodeWord 0xE5A1 = some (.sknp 5) ∧ decodeWord 0xF155 = some (.ldMemVx 1)

/-- R84, R52, R176, clause by clause in the order of the checks. Which state a faulting step leaves and the order of the checks are the spec's own decisions D2, D3, D25 (log entry 11). step is the step whose random byte is free (log entry 2), stepWith the one that is given it. -/
def Obligations.StepFetchesDecodesExecutes : Prop :=
    ∀ s : State,
      (s.fault ≠ none → step s = .next s ∧ ∀ rand, stepWith rand s = .next s) ∧
      (s.fault = none → 4094 < s.pc.toNat →
        step s = .next { s with fault := some (.addressOutOfRange .fetch s.pc.toNat) } ∧
        ∀ rand, stepWith rand s = .next { s with fault := some (.addressOutOfRange .fetch s.pc.toNat) }) ∧
      (s.fault = none → s.pc.toNat ≤ 4094 → ∀ w : Word,
        w.toNat = 256 * (s.readMem s.pc.toNat).toNat + (s.readMem (s.pc.toNat + 1)).toNat →
        (decodeWord w = none → step s = .next { s with fault := some (.illegalInstruction w) } ∧
          ∀ rand, stepWith rand s = .next { s with fault := some (.illegalInstruction w) }) ∧
        (∀ i : Instr, decodeWord w = some i → step s = exec i s ∧ ∀ rand, stepWith rand s = execWith rand i s))

/-- R181: the sequence of host operations is an input and the model "must give a result for every such sequence", each step carrying its rand; R214: "every operation returns". No step of the model ends in a fault or a refusal outcome (log entry 1). -/
def Obligations.EveryScheduleHasAResult : Prop :=
    ∀ (ops : List HostOp) (s : State), ∃ t, runSchedule ops s = .next t

/-- R173, over all instructions; that the faulting operation writes nothing is the spec's own decision D3 (log entry 11). -/
def Obligations.FaultEntryIsPrecise : Prop :=
    ∀ s t : State, s.fault = none → (step s = .next t ∨ ∃ rand, stepWith rand s = .next t) → t.fault ≠ none →
      t = { s with fault := t.fault }

/-- The table of R172 over all 35 instructions (ownFault is that table); the out-of-range faults are the spec's own decisions D2 and D6 (log entry 11). -/
def Obligations.InstructionsFaultExactlyAsListed : Prop :=
    ∀ (i : Instr) (s : State), s.fault = none → ∃ t, exec i s = .next t ∧ t.fault = ownFault i s

/-- R174 over whole schedules; the latch is the spec's own decision D3 (log entry 11). -/
def Obligations.FaultedMachineIgnoresAllButReset : Prop :=
    ∀ (ops : List HostOp) (s : State), s.fault ≠ none → (∀ op ∈ ops, op ≠ .reset ∧ op ≠ .initializeVM) →
      runSchedule ops s = .next s

/-- R100. -/
def Obligations.NopOnlyAdvances : Prop :=
    (∀ s : State, exec .nop s = .next { s with pc := s.pc + 2 }) ∧
    (∀ w : Word, decodeWord w = some .nop ↔ w = 0x0000) ∧
    (∀ w : Word, w.toNat < 0x1000 → w ≠ 0x0000 → w ≠ 0x00E0 → w ≠ 0x00EE → decodeWord w = none)

/-- R102. A jump to itself changes nothing; that the fetch after a target of 0xFFF faults is the spec's own decision D2 (log entry 11). -/
def Obligations.JumpSetsPc : Prop :=
    (∀ (nnn : Addr12) (s : State), exec (.jp nnn) s = .next { s with pc := BitVec.ofNat 16 nnn.toNat }) ∧
    (∀ (w : Word) (nnn : Addr12), decodeWord w = some (.jp nnn) ↔ w.toNat = 0x1000 + nnn.toNat) ∧
    (∀ (nnn : Addr12) (s : State), nnn.toNat = s.pc.toNat → exec (.jp nnn) s = .next s) ∧
    (∀ s : State, s.fault = none → ∃ t, exec (.jp 0xFFF) s = .next t ∧
      step t = .next { t with fault := some (.addressOutOfRange .fetch 0xFFF) })

/-- R104; that the next fetch faults on a sum above 0x0FFE is the spec's own decision D2 (log entry 11). -/
def Obligations.JumpV0AddsWithoutWrap : Prop :=
    ∀ (nnn : Addr12) (s : State), ∃ t, exec (.jpV0 nnn) s = .next t ∧ t = { s with pc := t.pc } ∧
      t.pc.toNat = s.V[(0 : Reg)].toNat + nnn.toNat ∧
      (s.fault = none → 0x0FFE < s.V[(0 : Reg)].toNat + nnn.toNat →
        step t = .next { t with fault := some (.addressOutOfRange .fetch (s.V[(0 : Reg)].toNat + nnn.toNat)) })

/-- R103; the overflow fault and the slot written are the spec's own decisions D2 and D12 (log entries 11, 12). -/
def Obligations.CallPushesReturnAddress : Prop :=
    ∀ (nnn : Addr12) (s : State),
      (s.sp.val < 16 → ∃ t, exec (.call nnn) s = .next t ∧
        t = { s with stack := t.stack, sp := t.sp, pc := BitVec.ofNat 16 nnn.toNat } ∧ t.sp.val = s.sp.val + 1 ∧
        ∀ k : Fin 16, t.stack[k] = if k.val = s.sp.val then s.pc + 2 else s.stack[k]) ∧
      (s.sp.val = 16 → exec (.call nnn) s = .next { s with fault := some (.addressOutOfRange .stackOverflow 16) })

/-- R101; the underflow fault and that the slot is kept are the spec's own decisions D2 and D12 (log entries 11, 12). -/
def Obligations.ReturnPopsReturnAddress : Prop :=
    ∀ s : State,
      (∀ k : Fin 16, s.sp.val = k.val + 1 → exec .ret s = .next { s with sp := k.castSucc, pc := s.stack[k] }) ∧
      (s.sp.val = 0 → exec .ret s = .next { s with fault := some (.addressOutOfRange .stackUnderflow 0) })

/-- S12: the program counter is restored "for a single level and for 16 nested levels"; every nesting that fits the stack. -/
def Obligations.NestedCallsReturnInOrder : Prop :=
    ∀ (targets : List Addr12) (s : State), s.sp.val + targets.length ≤ 16 →
      ∃ t, runInstrs (targets.map Instr.call ++ List.replicate targets.length Instr.ret) s = .next t ∧
        t = { s with stack := t.stack, pc := if targets = [] then s.pc else s.pc + 2 } ∧
        ∀ k : Fin 16, k.val < s.sp.val → t.stack[k] = s.stack[k]

/-- R110, R111. -/
def Obligations.SkipOnImmediate : Prop :=
    (∀ (x : Reg) (nn : Byte) (s : State),
      exec (.seImm x nn) s = .next { s with pc := if s.V[x] = nn then s.pc + 4 else s.pc + 2 } ∧
      exec (.sneImm x nn) s = .next { s with pc := if s.V[x] = nn then s.pc + 2 else s.pc + 4 }) ∧
    (∀ (w : Word) (x : Reg) (nn : Byte),
      (decodeWord w = some (.seImm x nn) ↔ w.toNat = 0x3000 + 0x100 * x.val + nn.toNat) ∧
      (decodeWord w = some (.sneImm x nn) ↔ w.toNat = 0x4000 + 0x100 * x.val + nn.toNat))

/-- R112, R113. -/
def Obligations.SkipOnRegisters : Prop :=
    (∀ (x y : Reg) (s : State),
      exec (.seReg x y) s = .next { s with pc := if s.V[x] = s.V[y] then s.pc + 4 else s.pc + 2 } ∧
      exec (.sneReg x y) s = .next { s with pc := if s.V[x] = s.V[y] then s.pc + 2 else s.pc + 4 }) ∧
    (∀ (w : Word) (x y : Reg),
      (decodeWord w = some (.seReg x y) ↔ w.toNat = 0x5000 + 0x100 * x.val + 0x10 * y.val) ∧
      (decodeWord w = some (.sneReg x y) ↔ w.toNat = 0x9000 + 0x100 * x.val + 0x10 * y.val)) ∧
    (∀ w : Word, w.toNat / 0x1000 = 5 ∨ w.toNat / 0x1000 = 9 → w.toNat % 16 ≠ 0 → decodeWord w = none)

/-- R120, R121, R122. With x = 15 the register written is VF. -/
def Obligations.LoadsAndAddImmediate : Prop :=
    (∀ (x y : Reg) (nn : Byte) (s : State),
      exec (.ldImm x nn) s = .next { s with V := s.V.set x nn, pc := s.pc + 2 } ∧
      exec (.addImm x nn) s =
        .next { s with V := s.V.set x (BitVec.ofNat 8 ((s.V[x].toNat + nn.toNat) % 256)), pc := s.pc + 2 } ∧
      exec (.ldReg x y) s = .next { s with V := s.V.set x s.V[y], pc := s.pc + 2 }) ∧
    (∀ (w : Word) (x y : Reg) (nn : Byte),
      (decodeWord w = some (.ldImm x nn) ↔ w.toNat = 0x6000 + 0x100 * x.val + nn.toNat) ∧
      (decodeWord w = some (.addImm x nn) ↔ w.toNat = 0x7000 + 0x100 * x.val + nn.toNat) ∧
      (decodeWord w = some (.ldReg x y) ↔ w.toNat = 0x8000 + 0x100 * x.val + 0x10 * y.val))

/-- R123, R124, R125; that VF is unchanged is the spec's own decision D20 (log entry 12). -/
def Obligations.LogicLeavesTheFlag : Prop :=
    ∀ (x y : Reg) (s : State),
      exec (.orReg x y) s =
        .next { s with V := s.V.set x (BitVec.ofNat 8 (s.V[x].toNat ||| s.V[y].toNat)), pc := s.pc + 2 } ∧
      exec (.andReg x y) s =
        .next { s with V := s.V.set x (BitVec.ofNat 8 (s.V[x].toNat &&& s.V[y].toNat)), pc := s.pc + 2 } ∧
      exec (.xorReg x y) s =
        .next { s with V := s.V.set x (BitVec.ofNat 8 (s.V[x].toNat ^^^ s.V[y].toNat)), pc := s.pc + 2 }

/-- R126; that VF ends as the flag when x = 15 is the spec's own decision D5 (log entry 10). -/
def Obligations.AddSetsCarry : Prop :=
    ∀ (x y : Reg) (s : State),
      exec (.addReg x y) s =
        .next { s with
          V := (s.V.set x (BitVec.ofNat 8 ((s.V[x].toNat + s.V[y].toNat) % 256))).set 15
            (if 255 < s.V[x].toNat + s.V[y].toNat then 1 else 0)
          pc := s.pc + 2 }

/-- R127, R129; VF at equal operands and with x = 15 are the spec's own decisions D18 and D5 (log entries 10, 12). -/
def Obligations.SubtractsSetNoBorrow : Prop :=
    ∀ (x y : Reg) (s : State),
      exec (.subReg x y) s =
        .next { s with
          V := (s.V.set x (BitVec.ofNat 8 ((s.V[x].toNat + 256 - s.V[y].toNat) % 256))).set 15
            (if s.V[y].toNat ≤ s.V[x].toNat then 1 else 0)
          pc := s.pc + 2 } ∧
      exec (.subnReg x y) s =
        .next { s with
          V := (s.V.set x (BitVec.ofNat 8 ((s.V[y].toNat + 256 - s.V[x].toNat) % 256))).set 15
            (if s.V[x].toNat ≤ s.V[y].toNat then 1 else 0)
          pc := s.pc + 2 }

/-- R128, R130; that VF ends as the flag when x = 15 is the spec's own decision D5 (log entry 10). -/
def Obligations.ShiftsSetTheBitShiftedOut : Prop :=
    ∀ (x : Reg) (s : State),
      exec (.shr x) s =
        .next { s with
          V := (s.V.set x (BitVec.ofNat 8 (s.V[x].toNat / 2))).set 15 (BitVec.ofNat 8 (s.V[x].toNat % 2))
          pc := s.pc + 2 } ∧
      exec (.shl x) s =
        .next { s with
          V := (s.V.set x (BitVec.ofNat 8 (s.V[x].toNat * 2 % 256))).set 15 (BitVec.ofNat 8 (s.V[x].toNat / 128))
          pc := s.pc + 2 }

/-- R131. The free byte Config.randomByte and its counter draws are the model's choice (log entry 2); the statement holds whatever the byte is. -/
def Obligations.RandomByteIsMasked : Prop :=
    ∀ (x : Reg) (nn : Byte) (s : State), ∃ t, exec (.rnd x nn) s = .next t ∧
      t = { s with V := s.V.set x (Config.randomByte s.draws &&& nn), draws := s.draws + 1, pc := s.pc + 2 } ∧
      (∀ k : Nat, t.V[x].getLsbD k = true → nn.getLsbD k = true) ∧ (nn = 0 → t.V[x] = 0) ∧
      ∀ rand : Byte, execWith rand (.rnd x nn) s =
        .next { s with V := s.V.set x (BitVec.ofNat 8 (rand.toNat &&& nn.toNat)), pc := s.pc + 2 }

/-- R192: the random byte is "used only if the instruction executed is CXNN and ignored otherwise"; which free byte is next is held in the model's own field draws (log entry 2). -/
def Obligations.OnlyRndUsesTheRandomByte : Prop :=
    ∀ (i : Instr) (s : State) (n : Nat), (∀ (x : Reg) (nn : Byte), i ≠ .rnd x nn) →
      ∃ t, exec i s = .next t ∧ t.draws = s.draws ∧ exec i { s with draws := n } = .next { t with draws := n } ∧
        ∀ rand : Byte, execWith rand i s = .next t

/-- R140. -/
def Obligations.LoadIndexSetsI : Prop :=
    (∀ (nnn : Addr12) (s : State), exec (.ldI nnn) s = .next { s with I := BitVec.ofNat 16 nnn.toNat, pc := s.pc + 2 }) ∧
    (∀ (w : Word) (nnn : Addr12), decodeWord w = some (.ldI nnn) ↔ w.toNat = 0xA000 + nnn.toNat)

/-- R141, R142; that VF is unchanged and V[x] unmasked are the spec's own decisions D20 and D21 (log entry 12). -/
def Obligations.IndexArithmetic : Prop :=
    ∀ (x : Reg) (s : State),
      exec (.addIVx x) s =
        .next { s with I := BitVec.ofNat 16 ((s.I.toNat + s.V[x].toNat) % 65536), pc := s.pc + 2 } ∧
      exec (.ldFVx x) s = .next { s with I := BitVec.ofNat 16 (5 * s.V[x].toNat), pc := s.pc + 2 }

/-- R143; the range fault and that I is unchanged are the spec's own decisions D2 and D13 (log entries 11, 12). The canonical form is the model's representation invariant. -/
def Obligations.StoreDecimalDigits : Prop :=
    ∀ (x : Reg) (s : State), MemoryCanonical s →
      (s.effAddr 2 ≤ 4095 → ∃ t, exec (.ldBVx x) s = .next t ∧ t = { s with mem := t.mem, pc := s.pc + 2 } ∧
        (t.readMem (s.effAddr 0)).toNat = s.V[x].toNat / 100 ∧
        (t.readMem (s.effAddr 1)).toNat = s.V[x].toNat / 10 % 10 ∧
        (t.readMem (s.effAddr 2)).toNat = s.V[x].toNat % 10 ∧
        ∀ a : Nat, a < s.effAddr 0 ∨ s.effAddr 2 < a → t.readMem a = s.readMem a) ∧
      (4095 < s.effAddr 2 →
        exec (.ldBVx x) s = .next { s with fault := some (.addressOutOfRange .memWrite (s.effAddr 2)) })

/-- R144, at every address, the glyph area too (R68); the range fault, I unchanged and the writable glyph area are the spec's own decisions D2, D13, D19 (log entries 11, 12). -/
def Obligations.StoreRegistersFromI : Prop :=
    ∀ (x : Reg) (s : State), MemoryCanonical s →
      (s.effAddr x.val ≤ 4095 → ∃ t, exec (.ldMemVx x) s = .next t ∧ t = { s with mem := t.mem, pc := s.pc + 2 } ∧
        (∀ k : Fin 16, k.val ≤ x.val → t.readMem (s.effAddr k.val) = s.V[k]) ∧
        ∀ a : Nat, a < s.effAddr 0 ∨ s.effAddr x.val < a → t.readMem a = s.readMem a) ∧
      (4095 < s.effAddr x.val →
        exec (.ldMemVx x) s = .next { s with fault := some (.addressOutOfRange .memWrite (s.effAddr x.val)) })

/-- R145; the range fault and I unchanged are the spec's own decisions D2 and D13 (log entries 11, 12). -/
def Obligations.LoadRegistersFromI : Prop :=
    ∀ (x : Reg) (s : State),
      (s.effAddr x.val ≤ 4095 → ∃ t, exec (.ldVxMem x) s = .next t ∧ t = { s with V := t.V, pc := s.pc + 2 } ∧
        ∀ k : Fin 16, t.V[k] = if k.val ≤ x.val then s.readMem (s.effAddr k.val) else s.V[k]) ∧
      (4095 < s.effAddr x.val →
        exec (.ldVxMem x) s = .next { s with fault := some (.addressOutOfRange .memRead (s.effAddr x.val)) })

/-- R63: "a store is seen by every later fetch, starting with the very next step"; the spec's own derivation from R55 and R35. -/
def Obligations.StoreIsSeenByTheNextFetch : Prop :=
    ∀ (x : Reg) (s : State) (i : Instr), MemoryCanonical s → s.fault = none → 1 ≤ x.val → s.pc.toNat ≤ 4092 →
      s.I = s.pc + 2 → s.effAddr x.val ≤ 4095 → decodeWord (wordOfBytes s.V[(0 : Reg)] s.V[(1 : Reg)]) = some i →
      ∃ t, exec (.ldMemVx x) s = .next t ∧ step t = exec i t

/-- The model's representation invariant (log entry 4): equal contents of the 4096 bytes, equal data. -/
def Obligations.EqualMemoriesAreEqualData : Prop :=
    ∀ (g : Glyph) (m m' : Memory), Memory.wf g m = true → Memory.wf g m' = true →
      (∀ a : Nat, a < 4096 → Memory.read g m a = Memory.read g m' a) → m = m'

/-- R150. -/
def Obligations.ClearTurnsEveryPixelOff : Prop :=
    (∀ s : State, ∃ t, exec .cls s = .next t ∧ t = { s with fb := t.fb, pc := s.pc + 2 } ∧
      (∀ (j : Fin 32) (k : Fin 64), t.fb[j][k] = false) ∧ exec .cls t = .next { t with pc := t.pc + 2 }) ∧
    (∀ w : Word, decodeWord w = some .cls ↔ w = 0x00E0)

/-- R151 in closed form, for every sprite, position and height: the loop's result pixel by pixel. The range fault, n = 0 and I unchanged are the spec's own decisions D2, D7, D13 (log entries 11, 12). -/
def Obligations.DrawXorsTheWrappedSprite : Prop :=
    ∀ (x y : Reg) (n : Fin 16) (s : State),
      (n.val = 0 ∨ s.effAddr (n.val - 1) ≤ 4095 → ∃ t, exec (.drw x y n) s = .next t ∧
        t = { s with fb := t.fb, V := s.V.set 15 t.V[(15 : Reg)], pc := s.pc + 2 } ∧
        (∀ (j : Fin 32) (k : Fin 64), SpriteCovers s x y n.val j k → t.fb[j][k] = !s.fb[j][k]) ∧
        (∀ (j : Fin 32) (k : Fin 64), ¬ SpriteCovers s x y n.val j k → t.fb[j][k] = s.fb[j][k]) ∧
        ((∃ (j : Fin 32) (k : Fin 64), SpriteCovers s x y n.val j k ∧ s.fb[j][k] = true) → t.V[(15 : Reg)] = 1) ∧
        ((¬ ∃ (j : Fin 32) (k : Fin 64), SpriteCovers s x y n.val j k ∧ s.fb[j][k] = true) → t.V[(15 : Reg)] = 0)) ∧
      (n.val ≠ 0 → 4095 < s.effAddr (n.val - 1) →
        exec (.drw x y n) s = .next { s with fault := some (.addressOutOfRange .memRead (s.effAddr (n.val - 1))) })

/-- R151: "Drawing the same sprite twice at the same place restores fb", the spec's own derivation; the place is the same when neither coordinate register is the VF the first draw wrote, or VF kept its value. -/
def Obligations.DrawingTwiceRestoresTheScreen : Prop :=
    ∀ (x y : Reg) (n : Fin 16) (s t : State), n.val = 0 ∨ s.effAddr (n.val - 1) ≤ 4095 →
      exec (.drw x y n) s = .next t → t.V[x] = s.V[x] → t.V[y] = s.V[y] →
      ∃ u, exec (.drw x y n) t = .next u ∧ u.fb = s.fb

/-- R160, R161; the fault above 15 is the spec's own decision D6 (log entry 11). -/
def Obligations.SkipOnKey : Prop :=
    ∀ (x : Reg) (s : State),
      (∀ k : Fin 16, s.V[x].toNat = k.val →
        exec (.skp x) s = .next { s with pc := if s.key[k] = true then s.pc + 4 else s.pc + 2 } ∧
        exec (.sknp x) s = .next { s with pc := if s.key[k] = true then s.pc + 2 else s.pc + 4 }) ∧
      (15 < s.V[x].toNat →
        exec (.skp x) s = .next { s with fault := some (.addressOutOfRange .keyIndex s.V[x].toNat) } ∧
        exec (.sknp x) s = .next { s with fault := some (.addressOutOfRange .keyIndex s.V[x].toNat) })

/-- R162. -/
def Obligations.KeyWaitTakesTheLowestKey : Prop :=
    (∀ (x : Reg) (s : State),
      (∀ k : Fin 16, s.key[k] = true → (∀ j : Fin 16, j < k → s.key[j] = false) →
        exec (.ldVxK x) s = .next { s with V := s.V.set x (BitVec.ofNat 8 k.val), pc := s.pc + 2 }) ∧
      ((∀ k : Fin 16, s.key[k] = false) → exec (.ldVxK x) s = .next s)) ∧
    (∀ (x : Reg) (s : State), s.fault = none → s.pc.toNat ≤ 4094 →
      decodeWord (wordOfBytes (s.readMem s.pc.toNat) (s.readMem (s.pc.toNat + 1))) = some (.ldVxK x) →
      (∀ k : Fin 16, s.key[k] = false) → step s = .next s ∧ ∀ rand, stepWith rand s = .next s) ∧
    (∀ (w : Word) (x : Reg), decodeWord w = some (.ldVxK x) ↔ w.toNat = 0xF00A + 0x100 * x.val)

/-- R163, R164. -/
def Obligations.DelayTimerInstructionsCopy : Prop :=
    (∀ (x : Reg) (s : State),
      exec (.ldVxDT x) s = .next { s with V := s.V.set x s.DT, pc := s.pc + 2 } ∧
      exec (.ldDTVx x) s = .next { s with DT := s.V[x], pc := s.pc + 2 }) ∧
    (∀ (w : Word) (x : Reg),
      (decodeWord w = some (.ldVxDT x) ↔ w.toNat = 0xF007 + 0x100 * x.val) ∧
      (decodeWord w = some (.ldDTVx x) ↔ w.toNat = 0xF015 + 0x100 * x.val))

/-- R165; the level output tone is the spec's own decision D10 (log entry 9). -/
def Obligations.SoundTimerInstructionSetsTone : Prop :=
    ∀ (x : Reg) (s : State), ∃ t, exec (.ldSTVx x) s = .next t ∧ t = { s with ST := s.V[x], pc := s.pc + 2 } ∧
      (t.tone = true ↔ s.V[x].toNat ≠ 0)

/-- The W entries of R34 over all 35 instructions, but for the V column (RegistersChangeOnlyAsNamed). That I is written by no memory or draw instruction and that RET keeps the stack slot are the spec's own decisions D13 and D12 (log entry 12); glyph and draws are the model's own fields (log entries 3, 2). -/
def Obligations.InstructionsWriteOnlyTheirOwnState : Prop :=
    ∀ (i : Instr) (s t : State), exec i s = .next t →
      t.key = s.key ∧ t.glyph = s.glyph ∧
      (t.fb ≠ s.fb → i = .cls ∨ ∃ x y n, i = .drw x y n) ∧
      (t.mem ≠ s.mem → ∃ x, i = .ldBVx x ∨ i = .ldMemVx x) ∧
      (t.stack ≠ s.stack → ∃ nnn, i = .call nnn) ∧
      (t.sp ≠ s.sp → i = .ret ∨ ∃ nnn, i = .call nnn) ∧
      (t.I ≠ s.I → (∃ nnn, i = .ldI nnn) ∨ ∃ x, i = .addIVx x ∨ i = .ldFVx x) ∧
      (t.DT ≠ s.DT → ∃ x, i = .ldDTVx x) ∧
      (t.ST ≠ s.ST → ∃ x, i = .ldSTVx x) ∧
      (t.draws ≠ s.draws → ∃ x nn, i = .rnd x nn)

/-- R21: "No other instruction writes VF as a side effect", and the V column of R34; that the logic instructions and ADD I write no flag is the spec's own decision D20 (log entry 12). -/
def Obligations.RegistersChangeOnlyAsNamed : Prop :=
    ∀ (i : Instr) (s t : State) (r : Reg), exec i s = .next t → t.V[r] ≠ s.V[r] →
      (∃ nn, i = .ldImm r nn ∨ i = .addImm r nn ∨ i = .rnd r nn) ∨
      (∃ y, i = .ldReg r y ∨ i = .orReg r y ∨ i = .andReg r y ∨ i = .xorReg r y) ∨
      (∃ x y, (i = .addReg x y ∨ i = .subReg x y ∨ i = .subnReg x y) ∧ (r = x ∨ r = 15)) ∨
      (∃ x, (i = .shr x ∨ i = .shl x) ∧ (r = x ∨ r = 15)) ∨
      (∃ x y n, i = .drw x y n ∧ r = 15) ∨ i = .ldVxDT r ∨ i = .ldVxK r ∨
      (∃ x, i = .ldVxMem x ∧ r ≤ x)

/-- R30: "no instruction reads ST": changing ST before changes nothing but ST after, and nothing at all for LD ST. -/
def Obligations.NoInstructionReadsTheSoundTimer : Prop :=
    ∀ (i : Instr) (s : State) (b : Byte), ∃ t, exec i s = .next t ∧
      ((∀ x, i ≠ .ldSTVx x) → exec i { s with ST := b } = .next { t with ST := b }) ∧
      ((∃ x, i = .ldSTVx x) → exec i { s with ST := b } = .next t)

/-- The table of R36, for the reset state, for initialize with any glyph table, and for reset from any state; the cleared keypad is the spec's own decision D15 (log entry 12), the cleared latch its D3 (log entry 11). That reset keeps the model's own glyph and that initialize inside a schedule acts as reset are the model's choice (log entry 7). -/
def Obligations.ResetLeavesTheListedValues : Prop :=
    (∀ t : State, (t = State.reset ∨ (∃ g, t = newVM g) ∨ ∃ s : State, t = s.resetOp) →
      (∀ r : Reg, t.V[r] = 0) ∧ t.I.toNat = 0 ∧ t.pc.toNat = 0x200 ∧ t.sp.val = 0 ∧
      (∀ k : Fin 16, t.stack[k] = 0) ∧ (∀ a : Fin 80, t.readMem a.val = t.glyph[a]) ∧
      (∀ a : Nat, 80 ≤ a → a < 4096 → t.readMem a = 0) ∧ (∀ k : Fin 16, t.key[k] = false) ∧
      (∀ (j : Fin 32) (k : Fin 64), t.fb[j][k] = false) ∧ t.DT = 0 ∧ t.ST = 0 ∧ t.fault = none) ∧
    (∀ g, (newVM g).glyph = g) ∧
    ∀ s : State, s.resetOp.glyph = s.glyph ∧ perform .reset s = .next s.resetOp ∧
      perform .initializeVM s = .next s.resetOp

/-- R203, R204; the size fault and that a faulted machine ignores it are the spec's own decisions D14 and D3 (log entry 11). The canonical form is the model's representation invariant. -/
def Obligations.LoadCopiesBytesFrom0x200 : Prop :=
    ∀ (bytes : List Byte) (s : State), ∃ t, perform (.load bytes) s = .next t ∧
      (s.fault ≠ none → t = s) ∧
      (s.fault = none → 3584 < bytes.length →
        t = { s with fault := some (.addressOutOfRange .loadSize bytes.length) }) ∧
      (s.fault = none → bytes.length ≤ 3584 → t = { s with mem := t.mem } ∧
        (∀ a : Nat, a < 0x200 ∨ 0x200 + bytes.length ≤ a → t.readMem a = s.readMem a) ∧
        (MemoryCanonical s → ∀ (k : Nat) (h : k < bytes.length), t.readMem (0x200 + k) = bytes[k]))

/-- R182; that the operation is ignored while a fault is latched is the spec's own decision D3 (log entry 11). -/
def Obligations.SetKeySetsOneFlag : Prop :=
    ∀ (k : Fin 16) (pressed : Bool) (s : State), ∃ t, perform (.setKey k pressed) s = .next t ∧
      t = { s with key := t.key } ∧
      (s.fault = none → ∀ j : Fin 16, t.key[j] = if j = k then pressed else s.key[j]) ∧ (s.fault ≠ none → t = s)

/-- R183; that a faulted machine ignores it is the spec's own decision D3 (log entry 11). Nothing else decrements a timer: a step changes one only by the instruction that writes it. -/
def Obligations.TickDecrementsBothTimers : Prop :=
    (∀ s : State, ∃ t, perform .tickTimers s = .next t ∧ t = { s with DT := t.DT, ST := t.ST } ∧
      (s.fault = none → t.DT.toNat = s.DT.toNat - 1 ∧ t.ST.toNat = s.ST.toNat - 1) ∧ (s.fault ≠ none → t = s)) ∧
    (∀ (i : Instr) (s t : State), exec i s = .next t →
      (t.DT = s.DT ∨ ∃ x, i = .ldDTVx x ∧ t.DT = s.V[x]) ∧ (t.ST = s.ST ∨ ∃ x, i = .ldSTVx x ∧ t.ST = s.V[x]))

/-- R186; the flat form is the spec's own decision D22 (log entry 9). -/
def Obligations.DisplayReadsTheFramebuffer : Prop :=
    ∀ s : State, perform .display s = .next s ∧ s.display.length = 2048 ∧
      ∀ (j : Fin 32) (k : Fin 64), s.display[64 * j.val + k.val]? = some s.fb[j][k]

/-- R211: "In an idle state step changes nothing, for every rand", the spec's own derivation from R102; the idle predicate is its decision D16. -/
def Obligations.IdleStateStaysIdle : Prop :=
    ∀ s : State, Idle s → step s = .next s ∧ ∀ rand, perform (.step rand) s = .next s

/-- The two invariants hold at State.reset and at every initialize. The canonical form is the model's own (log entry 4). -/
def Obligations.InvariantsHoldAtReset : Prop :=
    (MemoryCanonical State.reset ∧ CounterBounded State.reset) ∧ ∀ g, MemoryCanonical (newVM g) ∧ CounterBounded (newVM g)

/-- The representation invariant of the memory (log entry 4), over all instructions and all states that have it. -/
def Obligations.StepKeepsMemoryCanonical : Prop :=
    ∀ s t : State, MemoryCanonical s → step s = .next t → MemoryCanonical t

/-- R24: "the largest value pc can ever hold is 0x10FE" and a slot "at most 0x1000", the spec's own derivation, as an inductive invariant. -/
def Obligations.StepKeepsCounterBounded : Prop :=
    ∀ s t : State, CounterBounded s → step s = .next t → CounterBounded t

/-- Both invariants over every schedule of the seven host operations (R181), from every state that has them. The canonical form is the model's own representation (log entry 4), the bound on pc and the stack slots is R24's. -/
def Obligations.SchedulesKeepInvariants : Prop :=
    ∀ (ops : List HostOp) (s : State), MemoryCanonical s → CounterBounded s →
      ∃ t, runSchedule ops s = .next t ∧ MemoryCanonical t ∧ CounterBounded t

/-- R180, R192, R84: step(rand). That rand is an input of step is the spec's own decision D8; step without a byte is the model's (log entry 2). -/
def Obligations.StepTakesTheRandomByteAsInput : Prop :=
    ∀ (rand : Byte) (s : State),
      (∀ (x : Reg) (nn : Byte), s.fault = none → s.pc.toNat ≤ 4094 →
        decodeWord (wordOfBytes (s.readMem s.pc.toNat) (s.readMem (s.pc.toNat + 1))) = some (.rnd x nn) →
        perform (.step rand) s =
          .next { s with V := s.V.set x (BitVec.ofNat 8 (rand.toNat &&& nn.toNat)), pc := s.pc + 2 }) ∧
      ((¬ ∃ (x : Reg) (nn : Byte), s.fault = none ∧ s.pc.toNat ≤ 4094 ∧
        decodeWord (wordOfBytes (s.readMem s.pc.toNat) (s.readMem (s.pc.toNat + 1))) = some (.rnd x nn)) →
        perform (.step rand) s = step s)

/-- R6: rand is a free draw under no law. The free byte and its counter draws are the model's choice (log entry 2); the statement holds whatever the byte is. -/
def Obligations.FreeStepIsAStepGivenSomeByte : Prop :=
    ∀ s : State, ∃ t, step s = .next t ∧ perform (.step (Config.randomByte s.draws)) s = .next { t with draws := s.draws }

/-- R192: "Given the same reset, the same loads and the same sequence of operations with the same rand values, the core reaches the same state", for one glyph table. The model's own counter draws is kept and decides nothing (log entries 2, 7). -/
def Obligations.ResetRunsAreDetermined : Prop :=
    ∀ (ops : List HostOp) (s s' : State), s.glyph = s'.glyph →
      ∃ t, runSchedule (.reset :: ops) s = .next t ∧ runSchedule (.reset :: ops) s' = .next { t with draws := s'.draws }
end

