-- ==== Sys2Proof/Laws/Decode.lean ====
section
/-! SUPPORT. The fields of a word and the formats of the encoder as numbers (30_encoding.md R81 to R83). -/

namespace Sys2Proof

theorem nibble1_nat (w : Word) : nibble1 w = w.toNat / 4096 := by
  simp [nibble1, Nat.shiftRight_eq_div_pow]
  have := w.isLt
  omega

theorem nibble4_nat (w : Word) : nibble4 w = w.toNat % 16 := by
  simp [nibble4]

theorem fieldNN_nat (w : Word) : (fieldNN w).toNat = w.toNat % 256 := by
  simp [fieldNN]

theorem fieldX_nat (w : Word) : (fieldX w).val = w.toNat / 256 % 16 := by
  simp [fieldX, Nat.shiftRight_eq_div_pow]

theorem fieldY_nat (w : Word) : (fieldY w).val = w.toNat / 16 % 16 := by
  simp [fieldY, Nat.shiftRight_eq_div_pow]

theorem fieldN_nat (w : Word) : (fieldN w).val = w.toNat % 16 := by
  simp [fieldN]

theorem fieldNNN_nat (w : Word) : (fieldNNN w).toNat = w.toNat % 4096 := by
  simp [fieldNNN]

theorem append_nat {m n : Nat} (a : BitVec m) (b : BitVec n) : (a ++ b).toNat = a.toNat * 2 ^ n + b.toNat := by
  rw [BitVec.toNat_append, Nat.shiftLeft_eq, mul_comm, Nat.two_pow_add_eq_or_of_lt b.isLt]

theorem wordOfBytes_nat (hi lo : Byte) : (wordOfBytes hi lo).toNat = 256 * hi.toNat + lo.toNat := by
  rw [wordOfBytes, append_nat]
  omega

theorem wordOfBytes_split (w : Word) : wordOfBytes (highByte w) (lowByte w) = w := by
  rw [← BitVec.toNat_inj, wordOfBytes_nat]
  simp [highByte, lowByte, Nat.shiftRight_eq_div_pow]
  have := w.isLt
  omega

theorem encodeNNN_nat (op : BitVec 4) (nnn : Addr12) :
    (encodeNNN op nnn).toNat = op.toNat * 4096 + nnn.toNat := append_nat op nnn

theorem encodeXNN_nat (op : BitVec 4) (x : Reg) (nn : Byte) :
    (encodeXNN op x nn).toNat = op.toNat * 4096 + x.val * 256 + nn.toNat := by
  have h : (encodeXNN op x nn).toNat = _ := append_nat (op ++ (BitVec.ofFin x : BitVec 4)) nn
  rw [h, append_nat]
  simp only [BitVec.toNat_ofFin]
  omega

theorem encodeXYN_nat (op : BitVec 4) (x y : Reg) (n : BitVec 4) :
    (encodeXYN op x y n).toNat = op.toNat * 4096 + x.val * 256 + y.val * 16 + n.toNat := by
  have h : (encodeXYN op x y n).toNat = _ :=
    append_nat (op ++ (BitVec.ofFin x : BitVec 4) ++ (BitVec.ofFin y : BitVec 4)) n
  rw [h, append_nat, append_nat]
  simp only [BitVec.toNat_ofFin]
  omega

theorem encodeXFF_nat (op : BitVec 4) (x : Reg) (code : Byte) :
    (encodeXFF op x code).toNat = op.toNat * 4096 + x.val * 256 + code.toNat := encodeXNN_nat op x code

/-! The fields read back from each format. -/

@[simp] theorem nibble1_encodeNNN (op : BitVec 4) (nnn : Addr12) : nibble1 (encodeNNN op nnn) = op.toNat := by
  rw [nibble1_nat, encodeNNN_nat]; omega

@[simp] theorem fieldNNN_encodeNNN (op : BitVec 4) (nnn : Addr12) : fieldNNN (encodeNNN op nnn) = nnn := by
  rw [← BitVec.toNat_inj, fieldNNN_nat, encodeNNN_nat]; omega

@[simp] theorem nibble1_encodeXNN (op : BitVec 4) (x : Reg) (nn : Byte) : nibble1 (encodeXNN op x nn) = op.toNat := by
  rw [nibble1_nat, encodeXNN_nat]; omega

@[simp] theorem fieldX_encodeXNN (op : BitVec 4) (x : Reg) (nn : Byte) : fieldX (encodeXNN op x nn) = x := by
  rw [Fin.ext_iff, fieldX_nat, encodeXNN_nat]; omega

@[simp] theorem fieldNN_encodeXNN (op : BitVec 4) (x : Reg) (nn : Byte) : fieldNN (encodeXNN op x nn) = nn := by
  rw [← BitVec.toNat_inj, fieldNN_nat, encodeXNN_nat]; omega

@[simp] theorem nibble1_encodeXYN (op : BitVec 4) (x y : Reg) (n : BitVec 4) :
    nibble1 (encodeXYN op x y n) = op.toNat := by
  rw [nibble1_nat, encodeXYN_nat]; omega

@[simp] theorem nibble4_encodeXYN (op : BitVec 4) (x y : Reg) (n : BitVec 4) :
    nibble4 (encodeXYN op x y n) = n.toNat := by
  rw [nibble4_nat, encodeXYN_nat]; omega

@[simp] theorem fieldX_encodeXYN (op : BitVec 4) (x y : Reg) (n : BitVec 4) : fieldX (encodeXYN op x y n) = x := by
  rw [Fin.ext_iff, fieldX_nat, encodeXYN_nat]; omega

@[simp] theorem fieldY_encodeXYN (op : BitVec 4) (x y : Reg) (n : BitVec 4) : fieldY (encodeXYN op x y n) = y := by
  rw [Fin.ext_iff, fieldY_nat, encodeXYN_nat]; omega

@[simp] theorem fieldN_encodeXYN (op : BitVec 4) (x y : Reg) (n : BitVec 4) :
    fieldN (encodeXYN op x y n) = n.toFin := by
  have h : n.toFin.val = n.toNat := rfl
  rw [Fin.ext_iff, fieldN_nat, encodeXYN_nat, h]; omega

end Sys2Proof
end

