-- ==== Sys2Proof/Laws/Memory.lean ====
section
/-! SUPPORT. The laws of memory: a read after a write, the bytes a write leaves alone, and that the canonical form is
kept by every memory operation (20_memory.md R55). -/

namespace Sys2Proof.Machine.Memory

variable {g : Glyph}

@[simp] theorem read_nil (a : Nat) : read g [] a = unlisted g a := rfl

theorem read_cons_cell (b : Nat) (v : Byte) (m : Memory) (a : Nat) :
    read g ((b, v) :: m) a = if a = b then v else read g m a := rfl

/-- What `cons` reads as, where `m` does not list the address. -/
theorem read_cons {m : Memory} {a : Nat} {v : Byte} (fresh : read g m a = unlisted g a) (b : Nat) :
    read g (cons g a v m) b = if b = a then v else read g m b := by
  unfold cons
  split
  · rename_i h
    split
    · rename_i hb
      rw [hb, fresh, h]
    · rfl
  · rfl

theorem read_cons_other {m : Memory} {a b : Nat} {v : Byte} (h : b ≠ a) :
    read g (cons g a v m) b = read g m b := by
  unfold cons
  split
  · rfl
  · rw [read_cons_cell, if_neg h]

/-- Below its first address a canonical memory lists nothing. -/
theorem read_below {m : Memory} {lo a : Nat} (wf : wfFrom g lo m = true) (h : a < lo) :
    read g m a = unlisted g a := by
  induction m generalizing lo with
  | nil => rfl
  | cons c m ih =>
    obtain ⟨b, v⟩ := c
    simp only [wfFrom, Bool.and_eq_true, decide_eq_true_eq] at wf
    rw [read_cons_cell, if_neg (by omega)]
    exact ih wf.2 (by omega)

theorem wfFrom_mono {m : Memory} {lo lo' : Nat} (wf : wfFrom g lo m = true) (h : lo' ≤ lo) :
    wfFrom g lo' m = true := by
  cases m with
  | nil => rfl
  | cons c m =>
    simp only [wfFrom, Bool.and_eq_true, decide_eq_true_eq] at wf ⊢
    exact ⟨⟨⟨by omega, wf.1.1.2⟩, wf.1.2⟩, wf.2⟩

theorem cons_wf {m : Memory} {lo a : Nat} {v : Byte} (wf : wfFrom g (a + 1) m = true) (hlo : lo ≤ a)
    (ha : a < Config.memSize) : wfFrom g lo (cons g a v m) = true := by
  unfold cons
  split
  · exact wfFrom_mono wf (by omega)
  · rename_i h
    simp only [wfFrom, Bool.and_eq_true, decide_eq_true_eq]
    exact ⟨⟨⟨hlo, ha⟩, h⟩, wf⟩

/-- A write keeps the canonical form. -/
theorem write_wfFrom {m : Memory} {lo a : Nat} (v : Byte) (wf : wfFrom g lo m = true) (hlo : lo ≤ a)
    (ha : a < Config.memSize) : wfFrom g lo (write g m a v) = true := by
  induction m generalizing lo with
  | nil => exact cons_wf rfl hlo ha
  | cons c m ih =>
    obtain ⟨b, w⟩ := c
    have wf' := wf
    simp only [wfFrom, Bool.and_eq_true, decide_eq_true_eq] at wf
    unfold write
    split
    · rename_i hab
      refine cons_wf ?_ hlo ha
      simp only [wfFrom, Bool.and_eq_true, decide_eq_true_eq]
      exact ⟨⟨⟨hab, wf.1.1.2⟩, wf.1.2⟩, wf.2⟩
    · split
      · rename_i hab
        subst hab
        exact cons_wf wf.2 hlo ha
      · simp only [wfFrom, Bool.and_eq_true, decide_eq_true_eq]
        exact ⟨⟨⟨wf.1.1.1, wf.1.1.2⟩, wf.1.2⟩, ih wf.2 (by omega)⟩

theorem write_wf {m : Memory} {a : Nat} (v : Byte) (h : wf g m = true) (ha : a < Config.memSize) :
    wf g (write g m a v) = true :=
  write_wfFrom v h (Nat.zero_le a) ha

/-- A write leaves every other byte alone. -/
theorem read_write_other (m : Memory) {a b : Nat} (v : Byte) (h : b ≠ a) :
    read g (write g m a v) b = read g m b := by
  induction m with
  | nil => exact read_cons_other h
  | cons c m ih =>
    obtain ⟨d, w⟩ := c
    unfold write
    split
    · exact read_cons_other h
    · split
      · rename_i had
        rw [read_cons_other h, read_cons_cell, if_neg (by omega)]
      · rw [read_cons_cell, read_cons_cell, ih]

theorem read_writeFrom_same {m : Memory} {lo a : Nat} (v : Byte) (wf : wfFrom g lo m = true) :
    read g (write g m a v) a = v := by
  induction m generalizing lo with
  | nil => rw [write, read_cons rfl, if_pos rfl]
  | cons c m ih =>
    obtain ⟨b, w⟩ := c
    simp only [wfFrom, Bool.and_eq_true, decide_eq_true_eq] at wf
    unfold write
    split
    · rename_i hab
      have fresh : read g ((b, w) :: m) a = unlisted g a := by
        rw [read_cons_cell, if_neg (by omega), read_below wf.2 (by omega)]
      rw [read_cons fresh, if_pos rfl]
    · split
      · rename_i hab
        subst hab
        rw [read_cons (read_below wf.2 (Nat.lt_succ_self a)), if_pos rfl]
      · rename_i _ hne
        rw [read_cons_cell, if_neg hne, ih wf.2]

/-- A read after a write to the same byte gives the value written. -/
theorem read_write_same {m : Memory} (a : Nat) (v : Byte) (h : wf g m = true) :
    read g (write g m a v) a = v :=
  read_writeFrom_same v h

/-- A run of writes keeps the canonical form. -/
theorem writeBytes_wf {m : Memory} {a : Nat} {bs : List Byte} (h : wf g m = true)
    (ha : a + bs.length ≤ Config.memSize) : wf g (writeBytes g m a bs) = true := by
  induction bs generalizing m a with
  | nil => exact h
  | cons b bs ih =>
    simp only [List.length_cons] at ha
    exact ih (write_wf b h (by omega)) (by omega)

/-- A run of writes leaves every byte outside its range alone. -/
theorem read_writeBytes_outside {m : Memory} {a b : Nat} {bs : List Byte} (h : b < a ∨ a + bs.length ≤ b) :
    read g (writeBytes g m a bs) b = read g m b := by
  induction bs generalizing m a with
  | nil => rfl
  | cons v bs ih =>
    simp only [List.length_cons] at h
    rw [writeBytes, ih (by omega), read_write_other m v (by omega)]

/-- Byte `k` of a run of writes at `a` is found at `a + k`. -/
theorem read_writeBytes_inside {m : Memory} {a : Nat} {bs : List Byte} (wfm : wf g m = true)
    (ha : a + bs.length ≤ Config.memSize) {k : Nat} (hk : k < bs.length) :
    read g (writeBytes g m a bs) (a + k) = bs[k] := by
  induction bs generalizing m a k with
  | nil => exact absurd hk (Nat.not_lt_zero k)
  | cons v bs ih =>
    simp only [List.length_cons] at ha hk
    cases k with
    | zero =>
      show read g (writeBytes g (write g m a v) (a + 1) bs) a = v
      rw [read_writeBytes_outside (by omega), read_write_same a v wfm]
    | succ k =>
      rw [writeBytes, show a + (k + 1) = a + 1 + k by omega,
        ih (write_wf v wfm (by omega)) (by omega) (by omega)]
      rfl

@[simp] theorem readBytes_length (m : Memory) (a n : Nat) : (readBytes g m a n).length = n := by
  induction n generalizing a with
  | zero => rfl
  | succ n ih => rw [readBytes, List.length_cons, ih]

theorem readBytes_getElem (m : Memory) (a n k : Nat) (hk : k < (readBytes g m a n).length) :
    (readBytes g m a n)[k] = read g m (a + k) := by
  induction n generalizing a k with
  | zero => exact absurd hk (Nat.not_lt_zero k)
  | succ n ih =>
    cases k with
    | zero => rfl
    | succ k =>
      have := ih (a + 1) k (by simpa [readBytes] using hk)
      rw [show a + (k + 1) = a + 1 + k by omega]
      exact this

/-- The reset memory lists nothing and is canonical. -/
theorem nil_wf : wf g [] = true := rfl

end Sys2Proof.Machine.Memory
end

