-- ==== Sys2Proof/Laws/Ops.lean ====
section
/-! SUPPORT. One lemma for each shared operation that says what it can do; proofs cite these and do not unfold it. -/

namespace Sys2Proof.Machine

/-- Taking a fault answers a next state that differs in the latch only. -/
theorem takeFault_eq_next {f : Fault} {s t : State} : takeFault f s = .next t ↔ t = s.latch f := by
  simp only [takeFault, Host.Outcome.next.injEq]
  exact eq_comm

theorem advance_eq_next {cia s t : State} : advance cia s = .next t ↔ t = s.setPc cia.npc := by
  simp only [advance, Host.Outcome.next.injEq]
  exact eq_comm

theorem skipIf_eq_next {c : Bool} {s t : State} :
    skipIf c s = .next t ↔ t = s.setPc (if c then s.npc + 2 else s.npc) := by
  simp only [skipIf, Host.Outcome.next.injEq]
  exact eq_comm

/-- A checked access: past 4095 the fault is latched, else the access happens. -/
theorem checkRange_eq_next {kind : AccessKind} {last : Nat} {s t : State} {access : Result} :
    checkRange kind last s access = .next t ↔
      (4095 < last ∧ t = s.latch (.addressOutOfRange kind last)) ∨ (last ≤ 4095 ∧ access = .next t) := by
  unfold checkRange
  split <;> rename_i h
  · rw [takeFault_eq_next]
    constructor
    · exact fun e => .inl ⟨h, e⟩
    · rintro (⟨-, e⟩ | ⟨e, -⟩)
      · exact e
      · exact absurd h (by omega)
  · constructor
    · exact fun e => .inr ⟨by omega, e⟩
    · rintro (⟨e, -⟩ | ⟨-, e⟩)
      · exact absurd e h
      · exact e

theorem checkRange_ok {kind : AccessKind} {last : Nat} {s : State} {access : Result} (h : last ≤ 4095) :
    checkRange kind last s access = access := if_neg (by omega)

theorem checkRange_fault {kind : AccessKind} {last : Nat} {s : State} {access : Result} (h : 4095 < last) :
    checkRange kind last s access = takeFault (.addressOutOfRange kind last) s := if_pos h

theorem keyIndex_some {b : Byte} (h : b.toNat < 16) : keyIndex b = some ⟨b.toNat, h⟩ := dif_pos h

theorem keyIndex_none {b : Byte} (h : 15 < b.toNat) : keyIndex b = none := dif_neg (by omega)

/-- The register file after one write. -/
theorem setV_getElem (s : State) (x y : Reg) (b : Byte) :
    (s.setV x b).V[y] = if x = y then b else s.V[y] := by
  simp only [State.setV_V, Fin.getElem_fin, Vector.getElem_set, Fin.ext_iff]

/-- The register file after a result and its flag: VF holds the flag, whatever the destination (42_alu.md R132). -/
theorem setResult_getElem (s : State) (x y : Reg) (r : Byte) (flag : Bool) :
    (s.setResult x r flag).V[y] = if y = vf then flagByte flag else if x = y then r else s.V[y] := by
  rw [State.setResult, setV_getElem, setV_getElem]
  simp only [eq_comm]

/-- A result and its flag change the register file only. -/
theorem setResult_eq (s : State) (x : Reg) (r : Byte) (flag : Bool) :
    s.setResult x r flag = { s with V := (s.V.set x r).set vf (flagByte flag) } := rfl

theorem loadRegs_getElem (V : Vector Byte 16) (k : Nat) (bs : List Byte) (j : Nat) (hj : j < 16) :
    (loadRegs V k bs)[j] = if h : k ≤ j ∧ j < k + bs.length then bs[j - k] else V[j] := by
  induction bs generalizing V k with
  | nil => rw [dif_neg (by simp)]; rfl
  | cons b bs ih =>
    rw [loadRegs, ih]
    simp only [List.length_cons]
    by_cases hkj : k = j
    · subst hkj
      rw [dif_neg (by omega), dif_pos (by omega)]
      simp
    · by_cases hin : k + 1 ≤ j ∧ j < k + 1 + bs.length
      · rw [dif_pos hin, dif_pos (by omega)]
        simp only [show j - k = (j - (k + 1)) + 1 by omega, List.getElem_cons_succ]
      · rw [dif_neg hin, dif_neg (by omega)]
        simp [hkj]

/-- A run of stores leaves every byte outside its range alone. -/
theorem readMem_storeBytes_outside (s : State) {a b : Nat} {bs : List Byte} (h : b < a ∨ a + bs.length ≤ b) :
    (s.storeBytes a bs).readMem b = s.readMem b :=
  Memory.read_writeBytes_outside h

/-- A run of stores is found where it was stored. -/
theorem readMem_storeBytes_inside (s : State) {a k : Nat} {bs : List Byte} (wf : Memory.wf s.glyph s.mem = true)
    (ha : a + bs.length ≤ Config.memSize) (hk : k < bs.length) :
    (s.storeBytes a bs).readMem (a + k) = bs[k] :=
  Memory.read_writeBytes_inside wf ha hk

/-- A run of stores keeps the canonical form. -/
theorem storeBytes_wf (s : State) {a : Nat} {bs : List Byte} (wf : Memory.wf s.glyph s.mem = true)
    (ha : a + bs.length ≤ Config.memSize) :
    Memory.wf (s.storeBytes a bs).glyph (s.storeBytes a bs).mem = true :=
  Memory.writeBytes_wf wf ha

@[simp] theorem decimalDigits_length (v : Byte) : (decimalDigits v).length = 3 := rfl

@[simp] theorem regsUpTo_length (s : State) (x : Reg) : (s.regsUpTo x).length = x.val + 1 := by
  simp only [State.regsUpTo, List.length_take, Vector.length_toList]
  omega

theorem regsUpTo_getElem (s : State) (x : Reg) (k : Nat) (hk : k < (s.regsUpTo x).length) :
    (s.regsUpTo x)[k] = s.V[k]'(by rw [regsUpTo_length] at hk; omega) := by
  simp [State.regsUpTo]

@[simp] theorem readBytes_length (s : State) (a n : Nat) : (s.readBytes a n).length = n :=
  Memory.readBytes_length s.mem a n

theorem readBytes_getElem (s : State) (a n k : Nat) (hk : k < (s.readBytes a n).length) :
    (s.readBytes a n)[k] = s.readMem (a + k) :=
  Memory.readBytes_getElem s.mem a n k hk

/-- One plotted pixel: it alone is flipped. -/
theorem plot_pixel (c : Canvas) (x y : Nat) (j : Fin 32) (k : Fin 64) :
    (plot c x y).fb[j][k] = (c.fb[j][k] ^^ (decide (y % 32 = j.val) && decide (x % 64 = k.val))) := by
  obtain ⟨j, hj⟩ := j
  obtain ⟨k, hk⟩ := k
  have row (r : Vector Bool 64) : (r.set (x % 64) (!r[x % 64]'(Nat.mod_lt x (by decide))) (Nat.mod_lt x (by decide)))[k] =
      (r[k] ^^ decide (x % 64 = k)) := by
    rw [Vector.getElem_set]
    split <;> rename_i h
    · subst h; simp
    · simp [h]
  show ((c.fb.set (y % 32) _ (Nat.mod_lt y (by decide)))[j])[k] = (c.fb[j][k] ^^ _)
  by_cases h : y % 32 = j
  · subst h
    simp only [Vector.getElem_set_self, row, decide_true, Bool.true_and]
  · simp [h]

/-- A plot reports whether the pixel was on. -/
theorem plot_collision (c : Canvas) (x y : Nat) :
    (plot c x y).collision =
      (c.collision || (c.fb[y % 32]'(Nat.mod_lt y (by decide)))[x % 64]'(Nat.mod_lt x (by decide))) := rfl

/-- A draw changes the framebuffer and VF only. -/
theorem drawn_eq (s : State) (x y : Reg) (sprite : List Byte) :
    s.drawn x y sprite = { s with
      fb := (drawRows s.V[x].toNat s.V[y].toNat sprite { fb := s.fb, collision := false }).fb
      V := s.V.set vf (flagByte
        (drawRows s.V[x].toNat s.V[y].toNat sprite { fb := s.fb, collision := false }).collision) } := rfl

/-- The fetch, by where `pc` is (20_memory.md R58). -/
theorem fetchWord_ok {s : State} (h : s.pc.toNat ≤ 4094) : fetchWord s = .ok (s.wordAt s.pc.toNat) :=
  if_neg (by omega)

theorem fetchWord_fault {s : State} (h : 4094 < s.pc.toNat) :
    fetchWord s = .error (.addressOutOfRange .fetch s.pc.toNat) := if_pos h

theorem running_iff (s : State) : s.running = true ↔ s.fault = none := by
  simp [State.running]

end Sys2Proof.Machine
end

