-- ==== Sys2Proof/Laws/PerInstr.lean ====
section
/-! SUPPORT. Facts about every instruction as syntax, one lemma per constructor. -/

namespace Sys2Proof.Laws.OwnRow

/-- The encoding of an instruction belongs to the row of the opcode map that is the instruction's own (R85). -/
def Statement (i : Instr) : Prop := i.row.fits (encode i) = true

theorem encodeNNN_fits (op : BitVec 4) (nnn : Addr12) (bits : Word) (h : bits = encodeNNN op 0) :
    OpRow.fits ⟨0xF000, bits⟩ (encodeNNN op nnn) = true := by
  subst h
  simp only [OpRow.fits, beq_iff_eq]
  apply BitVec.eq_of_getLsbD_eq
  intro k hk
  simp only [encodeNNN, BitVec.getLsbD_and, BitVec.getLsbD_append]
  interval_cases k <;> simp

theorem encodeXNN_fits (op : BitVec 4) (x : Reg) (nn : Byte) (bits : Word) (h : bits = encodeXNN op 0 0) :
    OpRow.fits ⟨0xF000, bits⟩ (encodeXNN op x nn) = true := by
  subst h
  simp only [OpRow.fits, beq_iff_eq]
  apply BitVec.eq_of_getLsbD_eq
  intro k hk
  simp only [encodeXNN, BitVec.getLsbD_and, BitVec.getLsbD_append]
  interval_cases k <;> simp

theorem encodeXYN_fits (op : BitVec 4) (x y : Reg) (n : BitVec 4) (bits : Word)
    (h : bits = encodeXYN op 0 0 n) : OpRow.fits ⟨0xF00F, bits⟩ (encodeXYN op x y n) = true := by
  subst h
  simp only [OpRow.fits, beq_iff_eq]
  apply BitVec.eq_of_getLsbD_eq
  intro k hk
  simp only [encodeXYN, BitVec.getLsbD_and, BitVec.getLsbD_append]
  interval_cases k <;> simp

theorem encodeDraw_fits (op : BitVec 4) (x y : Reg) (n : BitVec 4) (bits : Word)
    (h : bits = encodeXYN op 0 0 0) : OpRow.fits ⟨0xF000, bits⟩ (encodeXYN op x y n) = true := by
  subst h
  simp only [OpRow.fits, beq_iff_eq]
  apply BitVec.eq_of_getLsbD_eq
  intro k hk
  simp only [encodeXYN, BitVec.getLsbD_and, BitVec.getLsbD_append]
  interval_cases k <;> simp

theorem encodeXFF_fits (op : BitVec 4) (x : Reg) (code : Byte) (bits : Word)
    (h : bits = encodeXFF op 0 code) : OpRow.fits ⟨0xF0FF, bits⟩ (encodeXFF op x code) = true := by
  subst h
  simp only [OpRow.fits, beq_iff_eq]
  apply BitVec.eq_of_getLsbD_eq
  intro k hk
  simp only [encodeXFF, encodeXNN, BitVec.getLsbD_and, BitVec.getLsbD_append]
  interval_cases k <;> simp

theorem nop : Statement .nop := rfl
theorem cls : Statement .cls := rfl
theorem ret : Statement .ret := rfl
theorem jp (nnn : Addr12) : Statement (.jp nnn) := encodeNNN_fits 0x1 nnn _ rfl
theorem call (nnn : Addr12) : Statement (.call nnn) := encodeNNN_fits 0x2 nnn _ rfl
theorem seImm (x : Reg) (nn : Byte) : Statement (.seImm x nn) := encodeXNN_fits 0x3 x nn _ rfl
theorem sneImm (x : Reg) (nn : Byte) : Statement (.sneImm x nn) := encodeXNN_fits 0x4 x nn _ rfl
theorem seReg (x : Reg) (y : Reg) : Statement (.seReg x y) := encodeXYN_fits 0x5 x y 0x0 _ rfl
theorem ldImm (x : Reg) (nn : Byte) : Statement (.ldImm x nn) := encodeXNN_fits 0x6 x nn _ rfl
theorem addImm (x : Reg) (nn : Byte) : Statement (.addImm x nn) := encodeXNN_fits 0x7 x nn _ rfl
theorem ldReg (x : Reg) (y : Reg) : Statement (.ldReg x y) := encodeXYN_fits 0x8 x y 0x0 _ rfl
theorem orReg (x : Reg) (y : Reg) : Statement (.orReg x y) := encodeXYN_fits 0x8 x y 0x1 _ rfl
theorem andReg (x : Reg) (y : Reg) : Statement (.andReg x y) := encodeXYN_fits 0x8 x y 0x2 _ rfl
theorem xorReg (x : Reg) (y : Reg) : Statement (.xorReg x y) := encodeXYN_fits 0x8 x y 0x3 _ rfl
theorem addReg (x : Reg) (y : Reg) : Statement (.addReg x y) := encodeXYN_fits 0x8 x y 0x4 _ rfl
theorem subReg (x : Reg) (y : Reg) : Statement (.subReg x y) := encodeXYN_fits 0x8 x y 0x5 _ rfl
theorem shr (x : Reg) : Statement (.shr x) := encodeXYN_fits 0x8 x 0 0x6 _ rfl
theorem subnReg (x : Reg) (y : Reg) : Statement (.subnReg x y) := encodeXYN_fits 0x8 x y 0x7 _ rfl
theorem shl (x : Reg) : Statement (.shl x) := encodeXYN_fits 0x8 x 0 0xE _ rfl
theorem sneReg (x : Reg) (y : Reg) : Statement (.sneReg x y) := encodeXYN_fits 0x9 x y 0x0 _ rfl
theorem ldI (nnn : Addr12) : Statement (.ldI nnn) := encodeNNN_fits 0xA nnn _ rfl
theorem jpV0 (nnn : Addr12) : Statement (.jpV0 nnn) := encodeNNN_fits 0xB nnn _ rfl
theorem rnd (x : Reg) (nn : Byte) : Statement (.rnd x nn) := encodeXNN_fits 0xC x nn _ rfl
theorem drw (x : Reg) (y : Reg) (n : Fin 16) : Statement (.drw x y n) := encodeDraw_fits 0xD x y _ _ rfl
theorem skp (x : Reg) : Statement (.skp x) := encodeXFF_fits 0xE x 0x9E _ rfl
theorem sknp (x : Reg) : Statement (.sknp x) := encodeXFF_fits 0xE x 0xA1 _ rfl
theorem ldVxDT (x : Reg) : Statement (.ldVxDT x) := encodeXFF_fits 0xF x 0x07 _ rfl
theorem ldVxK (x : Reg) : Statement (.ldVxK x) := encodeXFF_fits 0xF x 0x0A _ rfl
theorem ldDTVx (x : Reg) : Statement (.ldDTVx x) := encodeXFF_fits 0xF x 0x15 _ rfl
theorem ldSTVx (x : Reg) : Statement (.ldSTVx x) := encodeXFF_fits 0xF x 0x18 _ rfl
theorem addIVx (x : Reg) : Statement (.addIVx x) := encodeXFF_fits 0xF x 0x1E _ rfl
theorem ldFVx (x : Reg) : Statement (.ldFVx x) := encodeXFF_fits 0xF x 0x29 _ rfl
theorem ldBVx (x : Reg) : Statement (.ldBVx x) := encodeXFF_fits 0xF x 0x33 _ rfl
theorem ldMemVx (x : Reg) : Statement (.ldMemVx x) := encodeXFF_fits 0xF x 0x55 _ rfl
theorem ldVxMem (x : Reg) : Statement (.ldVxMem x) := encodeXFF_fits 0xF x 0x65 _ rfl

end Sys2Proof.Laws.OwnRow
end

