-- ==== Sys2Proof/Laws/Step.lean ====
section
/-! SUPPORT. What a step and each host operation can do, by whether a fault is latched (60_exceptions.md R174, R176). -/

namespace Sys2Proof.Machine

/-- A faulted machine ignores a step (R174), whatever executes. -/
theorem runStep_faulted {execute : Instr → Result} {s : State} (h : s.fault ≠ none) : runStep execute s = .next s := by
  have hr : s.running = false := by rw [← Bool.not_eq_true, running_iff]; exact h
  rw [runStep, hr]

theorem step_faulted {s : State} (h : s.fault ≠ none) : step s = .next s := runStep_faulted h

theorem stepWith_faulted {s : State} (rand : Byte) (h : s.fault ≠ none) : stepWith rand s = .next s := runStep_faulted h

/-- A running machine executes what it fetches, or takes the fault of the fetch or of the decoder (R176). -/
theorem runStep_running {execute : Instr → Result} {s : State} (h : s.fault = none) :
    runStep execute s = match fetchInstr s with
      | .error f => takeFault f s
      | .ok i => execute i := by
  cases hi : fetchInstr s <;> simp only [runStep, (running_iff s).2 h, hi]

theorem fetchInstr_fetch_fault {s : State} (h : 4094 < s.pc.toNat) :
    fetchInstr s = .error (.addressOutOfRange .fetch s.pc.toNat) := by
  rw [fetchInstr, fetchWord_fault h]

theorem fetchInstr_illegal {s : State} (h : s.pc.toNat ≤ 4094) (hd : decodeWord (s.wordAt s.pc.toNat) = none) :
    fetchInstr s = .error (.illegalInstruction (s.wordAt s.pc.toNat)) := by
  simp only [fetchInstr, fetchWord_ok h, hd]

theorem fetchInstr_ok {s : State} {i : Instr} (h : s.pc.toNat ≤ 4094)
    (hd : decodeWord (s.wordAt s.pc.toNat) = some i) : fetchInstr s = .ok i := by
  simp only [fetchInstr, fetchWord_ok h, hd]

/-- Everything a step can do: nothing, a fault latched, or one instruction executed. -/
theorem runStep_cases {execute : Instr → Result} {s t : State} (h : runStep execute s = .next t) :
    (s.fault ≠ none ∧ t = s) ∨
    (s.fault = none ∧ 4094 < s.pc.toNat ∧ t = s.latch (.addressOutOfRange .fetch s.pc.toNat)) ∨
    (s.fault = none ∧ s.pc.toNat ≤ 4094 ∧ decodeWord (s.wordAt s.pc.toNat) = none ∧
      t = s.latch (.illegalInstruction (s.wordAt s.pc.toNat))) ∨
    (s.fault = none ∧ s.pc.toNat ≤ 4094 ∧ ∃ i, decodeWord (s.wordAt s.pc.toNat) = some i ∧ execute i = .next t) := by
  by_cases hf : s.fault = none
  · rw [runStep_running hf] at h
    by_cases hp : 4094 < s.pc.toNat
    · rw [fetchInstr_fetch_fault hp] at h
      exact .inr (.inl ⟨hf, hp, takeFault_eq_next.1 h⟩)
    · have hp' : s.pc.toNat ≤ 4094 := by omega
      cases hd : decodeWord (s.wordAt s.pc.toNat) with
      | none =>
        rw [fetchInstr_illegal hp' hd] at h
        exact .inr (.inr (.inl ⟨hf, hp', rfl, takeFault_eq_next.1 h⟩))
      | some i =>
        rw [fetchInstr_ok hp' hd] at h
        exact .inr (.inr (.inr ⟨hf, hp', i, rfl, h⟩))
  · rw [runStep_faulted hf, Host.Outcome.next.injEq] at h
    exact .inl ⟨hf, h.symm⟩

/-- The same of a step with no byte given. -/
theorem step_cases {s t : State} (h : step s = .next t) :
    (s.fault ≠ none ∧ t = s) ∨
    (s.fault = none ∧ 4094 < s.pc.toNat ∧ t = s.latch (.addressOutOfRange .fetch s.pc.toNat)) ∨
    (s.fault = none ∧ s.pc.toNat ≤ 4094 ∧ decodeWord (s.wordAt s.pc.toNat) = none ∧
      t = s.latch (.illegalInstruction (s.wordAt s.pc.toNat))) ∨
    (s.fault = none ∧ s.pc.toNat ≤ 4094 ∧ ∃ i, decodeWord (s.wordAt s.pc.toNat) = some i ∧ exec i s = .next t) :=
  runStep_cases h

/-- Given its byte, CXNN masks it (42_alu.md R131). -/
theorem execWith_rnd (rand : Byte) (x : Reg) (nn : Byte) (s : State) :
    execWith rand (.rnd x nn) s = .next { s with V := s.V.set x (rand &&& nn), pc := s.pc + 2 } := rfl

/-- Every other instruction ignores the byte (60_exceptions.md R192). -/
theorem execWith_other (rand : Byte) {i : Instr} (h : ∀ (x : Reg) (nn : Byte), i ≠ .rnd x nn) (s : State) :
    execWith rand i s = exec i s := by
  cases i
  case rnd x nn => exact absurd rfl (h x nn)
  all_goals rfl

/-- A step with no byte given is the step given the byte it draws, but for the count of draws. -/
theorem exec_eq_execWith (i : Instr) (s t : State) (h : exec i s = .next t) :
    ∃ n, execWith s.rand i s = .next { t with draws := n } := by
  by_cases hi : ∃ (x : Reg) (nn : Byte), i = .rnd x nn
  · obtain ⟨x, nn, rfl⟩ := hi
    cases h
    exact ⟨s.draws, rfl⟩
  · exact ⟨t.draws, (execWith_other _ (fun x nn e => hi ⟨x, nn, e⟩) s).trans h⟩

/-- A load: ignored, refused for its length, or stored at 0x200 (70_reset_and_hazards.md R203, R204). -/
theorem loadOp_cases (s : State) (bytes : List Byte) :
    (s.fault ≠ none ∧ s.loadOp bytes = s) ∨
    (s.fault = none ∧ 3584 < bytes.length ∧ s.loadOp bytes = s.latch (.addressOutOfRange .loadSize bytes.length)) ∨
    (s.fault = none ∧ bytes.length ≤ 3584 ∧ s.loadOp bytes = s.storeBytes 0x200 bytes) := by
  unfold State.loadOp
  by_cases hf : s.fault = none
  · rw [if_pos ((running_iff s).2 hf)]
    by_cases hl : 3584 < bytes.length
    · exact .inr (.inl ⟨hf, hl, if_pos hl⟩)
    · exact .inr (.inr ⟨hf, by omega, if_neg hl⟩)
  · exact .inl ⟨hf, if_neg (mt (running_iff s).1 hf)⟩

theorem setKeyOp_running {s : State} (h : s.fault = none) (k : Fin 16) (pressed : Bool) :
    s.setKeyOp k pressed = { s with key := s.key.set k pressed } := if_pos ((running_iff s).2 h)

theorem setKeyOp_faulted {s : State} (h : s.fault ≠ none) (k : Fin 16) (pressed : Bool) :
    s.setKeyOp k pressed = s := if_neg (mt (running_iff s).1 h)

theorem tickOp_running {s : State} (h : s.fault = none) :
    s.tickOp = { s with DT := tickDown s.DT, ST := tickDown s.ST } := if_pos ((running_iff s).2 h)

theorem tickOp_faulted {s : State} (h : s.fault ≠ none) : s.tickOp = s := if_neg (mt (running_iff s).1 h)

/-- A tick takes one off, with a floor at 0 (R183). -/
theorem tickDown_nat (b : Byte) : (tickDown b).toNat = b.toNat - 1 := by
  unfold tickDown
  split
  · rename_i h
    rw [BitVec.toNat_sub]
    simp
    have := b.isLt
    omega
  · omega

end Sys2Proof.Machine
end

