-- ==== Sys2Proof/Tests/Slice0.lean ====
section
/-! SUPPORT. Tests: decoding of words written out from the encodings of 30_encoding.md, single steps from the vectors of
95_test_vectors.md (each docstring names its vector), and a witness for every obligation that has hypotheses. -/

namespace Sys2Proof.Tests

open Sys2Proof.Machine Sys2Proof.Safety

/-! Helpers. -/

/-- The next state, if there is one. -/
def nextOf : Result → Option State
  | .next t => some t
  | .fault _ => none
  | .refused _ => none

/-- The reset state with some registers loaded. -/
def withRegs (rs : List (Reg × Byte)) : State := rs.foldl (fun s r => s.setV r.1 r.2) State.reset

/-- The reset state with an index register, some registers and some bytes at the index register. -/
def atIndex (i : Word) (rs : List (Reg × Byte)) (bs : List Byte) : State :=
  ((withRegs rs).setI i).storeBytes i.toNat bs

/-- One step that runs a word placed at `pc`. -/
def runWord (w : Nat) (s : State) : Option State := nextOf (step (s.withFetchWord 16 w))

/-- The reset state with one fault latched and a running delay timer. -/
def faulted : State := { State.reset with fault := some (.illegalInstruction 0x5011), DT := 5 }

/-- The reset state with a number of return addresses on the stack, each 0x20A. -/
def nested (n : Fin 17) : State := { State.reset with sp := n, stack := Vector.replicate 16 0x20A, pc := 0x208 }

/-- The reset state with some keys pressed and `pc` 0x210. -/
def withKeys (ks : List (Fin 16)) (rs : List (Reg × Byte)) : State :=
  { withRegs rs with key := ks.foldl (fun (v : Vector Bool 16) (k : Fin 16) => v.set k true) (Vector.replicate 16 false), pc := 0x210 }

/-! Well-formedness: a word of each class of 30_encoding.md R87 is refused by the check and by the decoder. -/

/-- 95_test_vectors.md 2.7. -/
theorem test_illegal_class0 :
    ([0x0001, 0x00E1, 0x00EF, 0x0100, 0x0FFF] : List Word).all (fun w => !wellFormedWord w && (decodeWord w).isNone) = true := by decide

/-- 95_test_vectors.md 2.7. -/
theorem test_illegal_class5 :
    ([0x5AB1, 0x5ABF] : List Word).all (fun w => !wellFormedWord w && (decodeWord w).isNone) = true := by decide

/-- 95_test_vectors.md 2.7. -/
theorem test_illegal_class8 :
    ([0x8AB8, 0x8ABD, 0x8ABF] : List Word).all (fun w => !wellFormedWord w && (decodeWord w).isNone) = true := by decide

/-- 95_test_vectors.md 2.7. -/
theorem test_illegal_class9 :
    ([0x9AB1, 0x9ABF] : List Word).all (fun w => !wellFormedWord w && (decodeWord w).isNone) = true := by decide

/-- 95_test_vectors.md 2.7. -/
theorem test_illegal_classE :
    ([0xEA00, 0xEA9F, 0xEAA0, 0xEAFF] : List Word).all (fun w => !wellFormedWord w && (decodeWord w).isNone) = true := by decide

/-- 95_test_vectors.md 2.7. -/
theorem test_illegal_classF :
    ([0xFA00, 0xFA08, 0xFA30, 0xFA75, 0xFA85, 0xFAFF] : List Word).all (fun w => !wellFormedWord w && (decodeWord w).isNone) = true := by decide

/-- 95_test_vectors.md 2.7: legal words at the edges of each family. -/
theorem test_legal_words :
    ([0x0000, 0x00E0, 0x00EE, 0x1000, 0x1FFF, 0x5AB0, 0x8AB7, 0x8ABE, 0x9AB0, 0xEA9E, 0xEAA1, 0xFA07, 0xFA65] : List Word).all
      (fun w => wellFormedWord w && (decodeWord w).isSome) = true := by decide

/-! Decoding: the word of every constructor, bit by bit from the formats of R83 and the codes of R85. -/

theorem test_decode_nop : decodeWord 0b0000000000000000 = some (.nop) := by decide
theorem test_decode_cls : decodeWord 0b0000000011100000 = some (.cls) := by decide
theorem test_decode_ret : decodeWord 0b0000000011101110 = some (.ret) := by decide
theorem test_decode_jp : decodeWord 0b0001101010111100 = some (.jp 0xABC) := by decide
theorem test_decode_call : decodeWord 0b0010001000001110 = some (.call 0x20E) := by decide
theorem test_decode_seImm : decodeWord 0b0011101001000010 = some (.seImm 10 0x42) := by decide
theorem test_decode_sneImm : decodeWord 0b0100101001000010 = some (.sneImm 10 0x42) := by decide
theorem test_decode_seReg : decodeWord 0b0101000100100000 = some (.seReg 1 2) := by decide
theorem test_decode_ldImm : decodeWord 0b0110001110011101 = some (.ldImm 3 0x9D) := by decide
theorem test_decode_addImm : decodeWord 0b0111000111111111 = some (.addImm 1 0xFF) := by decide
theorem test_decode_ldReg : decodeWord 0b1000000100100000 = some (.ldReg 1 2) := by decide
theorem test_decode_orReg : decodeWord 0b1000000100100001 = some (.orReg 1 2) := by decide
theorem test_decode_andReg : decodeWord 0b1000000100100010 = some (.andReg 1 2) := by decide
theorem test_decode_xorReg : decodeWord 0b1000000100100011 = some (.xorReg 1 2) := by decide
theorem test_decode_addReg : decodeWord 0b1000000100100100 = some (.addReg 1 2) := by decide
theorem test_decode_subReg : decodeWord 0b1000000100100101 = some (.subReg 1 2) := by decide
theorem test_decode_shr : decodeWord 0b1000000110100110 = some (.shr 1) := by decide
theorem test_decode_subnReg : decodeWord 0b1000000100100111 = some (.subnReg 1 2) := by decide
theorem test_decode_shl : decodeWord 0b1000000110101110 = some (.shl 1) := by decide
theorem test_decode_sneReg : decodeWord 0b1001000100100000 = some (.sneReg 1 2) := by decide
theorem test_decode_ldI : decodeWord 0b1010001100000000 = some (.ldI 0x300) := by decide
theorem test_decode_jpV0 : decodeWord 0b1011001011111111 = some (.jpV0 0x2FF) := by decide
theorem test_decode_rnd : decodeWord 0b1100001000001111 = some (.rnd 2 0x0F) := by decide
theorem test_decode_drw : decodeWord 0b1101000100100101 = some (.drw 1 2 5) := by decide
theorem test_decode_skp : decodeWord 0b1110010110011110 = some (.skp 5) := by decide
theorem test_decode_sknp : decodeWord 0b1110010110100001 = some (.sknp 5) := by decide
theorem test_decode_ldVxDT : decodeWord 0b1111010000000111 = some (.ldVxDT 4) := by decide
theorem test_decode_ldVxK : decodeWord 0b1111001100001010 = some (.ldVxK 3) := by decide
theorem test_decode_ldDTVx : decodeWord 0b1111101000010101 = some (.ldDTVx 10) := by decide
theorem test_decode_ldSTVx : decodeWord 0b1111000100011000 = some (.ldSTVx 1) := by decide
theorem test_decode_addIVx : decodeWord 0b1111001000011110 = some (.addIVx 2) := by decide
theorem test_decode_ldFVx : decodeWord 0b1111000000101001 = some (.ldFVx 0) := by decide
theorem test_decode_ldBVx : decodeWord 0b1111001100110011 = some (.ldBVx 3) := by decide
theorem test_decode_ldMemVx : decodeWord 0b1111000101010101 = some (.ldMemVx 1) := by decide
theorem test_decode_ldVxMem : decodeWord 0b1111001001100101 = some (.ldVxMem 2) := by decide

/-- 20_memory.md R52: the first byte is the high byte. -/
theorem test_decode_bytes : decode [0x22, 0x0E, 0xFF] = .ok (.call 0x20E, [0xFF]) := by decide

/-- One byte is no instruction. -/
theorem test_decode_truncated : decode [0x22] = .error .truncated := by decide

/-- The host's view of the decoder. -/
theorem test_decodeTableWord :
    decodeTableWord 16 0xD125 = some (.drw 1 2 5) ∧ decodeTableWord 16 0x5011 = none := by decide

/-- The placed instruction is what the next step runs. -/
theorem test_withFetchWord :
    (runWord 0x6007 State.reset).map (fun t => (t.V[0], t.pc)) = some (0x07, 0x202) ∧
    (runWord 0x6007 (State.reset.setPc 0xFFF)).map (fun t => (t.V[0], t.pc)) = some (0x07, 0x202) := by decide

/-! Single steps. -/

/-- 2.1. -/
theorem test_nop :
    (runWord 0x0000 State.reset).map (fun t => t.pc) = some 0x202 := by decide

/-- 2.1: a jump to itself. -/
theorem test_jp :
    (runWord 0x120A (State.reset.setPc 0x20A)).map (fun t => t.pc) = some 0x20A := by decide

/-- 2.1: the step after a jump to 0xFFF faults. -/
theorem test_jp_unfetchable :
    ((runWord 0x1FFF State.reset).bind fun t => nextOf (step t)).map (fun t => (t.fault, t.pc)) =
      some (some (.addressOutOfRange .fetch 0xFFF), 0xFFF) := by decide

/-- 2.1: the 16th level is legal. -/
theorem test_call_16th :
    (runWord 0x2300 (nested 15)).map (fun t => (t.stack[15], t.sp, t.pc)) = some (0x20A, 16, 0x300) := by decide

/-- 2.1. -/
theorem test_call_17th :
    (runWord 0x2300 (nested 16)).map (fun t => (t.fault, t.sp, t.pc)) = some (some (.addressOutOfRange .stackOverflow 16), 16, 0x208) := by decide

/-- 2.1: the slot is kept. -/
theorem test_ret :
    (runWord 0x00EE (nested 1)).map (fun t => (t.sp, t.pc, t.stack[0])) = some (0, 0x20A, 0x20A) := by decide

/-- 2.1. -/
theorem test_ret_empty :
    (runWord 0x00EE (nested 0)).map (fun t => (t.fault, t.pc)) = some (some (.addressOutOfRange .stackUnderflow 0), 0x208) := by decide

/-- 2.1: no wrap to 0x0FE. -/
theorem test_jpV0 :
    (runWord 0xBFFF (withRegs [(0, 0xFF)])).map (fun t => t.pc) = some 0x10FE := by decide

/-- 2.1. -/
theorem test_jpV0_noFlag :
    (runWord 0xB2FF (withRegs [(0, 1), (15, 7)])).map (fun t => (t.pc, t.V[15])) = some (0x300, 7) := by decide

/-- 2.2. -/
theorem test_seImm :
    (runWord 0x3A42 (withRegs [(10, 0x42)])).map (fun t => t.pc) = some 0x204 ∧
    (runWord 0x3A42 (withRegs [(10, 0x43)])).map (fun t => t.pc) = some 0x202 := by decide

/-- 2.2. -/
theorem test_sneImm :
    (runWord 0x4A42 (withRegs [(10, 0x42)])).map (fun t => t.pc) = some 0x202 ∧
    (runWord 0x4A42 (withRegs [(10, 0x43)])).map (fun t => t.pc) = some 0x204 := by decide

/-- 2.2. -/
theorem test_seReg :
    (runWord 0x5120 (withRegs [(1, 0x10), (2, 0x10)])).map (fun t => t.pc) = some 0x204 ∧
    (runWord 0x5120 (withRegs [(1, 0x10), (2, 0x11)])).map (fun t => t.pc) = some 0x202 := by decide

/-- 2.2. -/
theorem test_sneReg :
    (runWord 0x9120 (withRegs [(1, 0x10), (2, 0x11)])).map (fun t => t.pc) = some 0x204 ∧
    (runWord 0x9120 (withRegs [(1, 0x10), (2, 0x10)])).map (fun t => t.pc) = some 0x202 := by decide

/-- 2.2. -/
theorem test_skip_at_top :
    (runWord 0x3000 (State.reset.setPc 0xFFE)).map (fun t => t.pc) = some 0x1002 := by decide

/-- 2.3. -/
theorem test_ldImm :
    (runWord 0x6F07 State.reset).map (fun t => t.V[15]) = some 0x07 := by decide

/-- 2.3: wraps, no flag. -/
theorem test_addImm :
    (runWord 0x7102 (withRegs [(1, 0xFF)])).map (fun t => (t.V[1], t.V[15])) = some (1, 0) := by decide

/-- 2.3. -/
theorem test_ldReg :
    (runWord 0x8120 (withRegs [(2, 0x55)])).map (fun t => t.V[1]) = some 0x55 := by decide

/-- 2.3. -/
theorem test_orReg :
    (runWord 0x8121 (withRegs [(1, 0xF0), (2, 0x3C), (15, 1)])).map (fun t => (t.V[1], t.V[15])) = some (0xFC, 1) := by decide

/-- 2.3. -/
theorem test_andReg :
    (runWord 0x8122 (withRegs [(1, 0xF0), (2, 0x3C), (15, 1)])).map (fun t => (t.V[1], t.V[15])) = some (0x30, 1) := by decide

/-- 2.3. -/
theorem test_xorReg :
    (runWord 0x8123 (withRegs [(1, 0xF0), (2, 0x3C), (15, 1)])).map (fun t => (t.V[1], t.V[15])) = some (0xCC, 1) := by decide

/-- S1. -/
theorem test_addReg :
    (runWord 0x8124 (withRegs [(1, 0xFF), (2, 0x01)])).map (fun t => (t.V[1], t.V[15])) = some (0x00, 1) := by decide

/-- 2.3: X = F and Y = F. -/
theorem test_addReg_vf :
    (runWord 0x8F24 (withRegs [(15, 0x05), (2, 0xFE)])).map (fun t => t.V[15]) = some 1 ∧
    (runWord 0x81F4 (withRegs [(1, 0x10), (15, 0x01)])).map (fun t => (t.V[1], t.V[15])) = some (0x11, 0) := by decide

/-- S3. -/
theorem test_subReg :
    (runWord 0x8125 (withRegs [(1, 0x01), (2, 0x02)])).map (fun t => (t.V[1], t.V[15])) = some (0xFF, 0) := by decide

/-- 2.3: equal operands do not borrow. -/
theorem test_subReg_equal :
    (runWord 0x8125 (withRegs [(1, 5), (2, 5)])).map (fun t => (t.V[1], t.V[15])) = some (0, 1) := by decide

/-- 2.3: Y is ignored. -/
theorem test_shr :
    (runWord 0x81A6 (withRegs [(1, 0xFE), (10, 0x55)])).map (fun t => (t.V[1], t.V[15], t.V[10])) = some (0x7F, 0, 0x55) := by decide

/-- 2.3: X = F. -/
theorem test_shr_vf :
    (runWord 0x8F06 (withRegs [(15, 0x02)])).map (fun t => t.V[15]) = some 0 := by decide

/-- 2.3. -/
theorem test_subnReg :
    (runWord 0x8127 (withRegs [(1, 2), (2, 1)])).map (fun t => (t.V[1], t.V[15], t.V[2])) = some (0xFF, 0, 1) := by decide

/-- 2.3. -/
theorem test_subnReg_noBorrow :
    (runWord 0x8127 (withRegs [(1, 1), (2, 3)])).map (fun t => (t.V[1], t.V[15])) = some (2, 1) := by decide

/-- S6. -/
theorem test_shl :
    (runWord 0x810E (withRegs [(1, 0x81)])).map (fun t => (t.V[1], t.V[15])) = some (0x02, 1) := by decide

/-- 2.3: X = F. -/
theorem test_shl_vf :
    (runWord 0x8F0E (withRegs [(15, 0x41)])).map (fun t => t.V[15]) = some 0 := by decide

/-- 2.3, the host step given its random byte. -/
theorem test_rnd :
    (nextOf (perform (.step 0xB7) (State.reset.withFetchWord 16 0xC20F))).map (fun t => (t.V[2], t.pc)) = some (0x07, 0x202) ∧
    (nextOf (perform (.step 0xFF) (State.reset.withFetchWord 16 0xC2F0))).map (fun t => (t.V[2], t.pc)) = some (0xF0, 0x202) := by decide

/-- 2.3: with a zero mask the result is zero, whatever the random byte is. -/
theorem test_rnd_zero_mask :
    (runWord 0xC200 (withRegs [(2, 0x33)])).map (fun t => (t.V[2], t.draws)) = some (Config.randomByte 0 &&& 0, 1) := rfl

/-- 2.4. -/
theorem test_ldI :
    (runWord 0xA300 (State.reset.setI 0xFFFF)).map (fun t => t.I) = some 0x300 := by decide

/-- 2.4: modulo 65536, no flag. -/
theorem test_addIVx :
    (runWord 0xF21E ((withRegs [(2, 1), (15, 7)]).setI 0xFFFF)).map (fun t => (t.I, t.V[15])) = some (0, 7) := by decide

/-- 2.4: not masked. -/
theorem test_ldFVx :
    (runWord 0xF029 (withRegs [(0, 0xFF)])).map (fun t => t.I) = some 0x04FB := by decide

/-- S9. -/
theorem test_ldBVx :
    (runWord 0xF333 (atIndex 0x300 [(3, 157)] [])).map (fun t => (t.readBytes 0x300 3, t.I)) = some ([1, 5, 7], 0x300) := by decide

/-- 2.4. -/
theorem test_ldBVx_range :
    (runWord 0xF333 (State.reset.setI 0xFFE)).map (fun t => t.fault) = some (some (.addressOutOfRange .memWrite 0x1000)) := by decide

/-- 2.4. -/
theorem test_ldMemVx :
    (runWord 0xF155 (atIndex 0x208 [(0, 0x6C), (1, 0x42), (2, 0x99)] [])).map (fun t => (t.readBytes 0x208 3, t.I)) = some ([0x6C, 0x42, 0], 0x208) := by decide

/-- 2.4: no 16-bit wrap. -/
theorem test_ldMemVx_range :
    (runWord 0xF155 (State.reset.setI 0xFFFF)).map (fun t => (t.fault, t.readMem 0xFFF)) = some (some (.addressOutOfRange .memWrite 0x10000), 0) := by decide

/-- 2.4. -/
theorem test_ldVxMem :
    (runWord 0xF265 (atIndex 0x300 [(3, 0x9D)] [1, 5, 7])).map (fun t => (t.V[0], t.V[1], t.V[2], t.V[3])) = some (1, 5, 7, 0x9D) := by decide

/-- 2.4; rests on the default glyph table (PRESUMED, log entry 3). -/
theorem test_ldVxMem_glyphs :
    (runWord 0xFF65 State.reset).map (fun t => t.V.toList) = some [0xF0, 0x90, 0x90, 0x90, 0xF0, 0x20, 0x60, 0x20, 0x20, 0x70, 0xF0, 0x10, 0xF0, 0x80, 0xF0, 0xF0] := by decide

/-- DV14. -/
theorem test_cls :
    (runWord 0x00E0 { withRegs [(15, 1)] with fb := Vector.replicate 32 (Vector.replicate 64 true) }).map (fun t => (t.fb[0][0], t.fb[31][63], t.V[15])) = some (false, false, 1) := by decide

/-- DV7. -/
theorem test_drw_wraps :
    (runWord 0xD012 (atIndex 0x300 [(0, 63), (1, 31)] [0xC0, 0xC0])).map (fun t => (t.fb[31][63], t.fb[31][0], t.fb[0][63], t.fb[0][0], t.V[15])) = some (true, true, true, true, 0) := by decide

/-- DV1, DV2: the second draw turns the pixels off. -/
theorem test_drw_collides :
    ((runWord 0xD011 (atIndex 0x300 [(0, 10), (1, 5)] [0xFF])).bind fun t => runWord 0xD011 t).map
      (fun t => (t.fb[5][10], t.fb[5][17], t.V[15])) = some (false, false, 1) := by decide

/-- 2.6. -/
theorem test_skp :
    (runWord 0xE59E (withKeys [7] [(5, 7)])).map (fun t => t.pc) = some 0x214 ∧
    (runWord 0xE59E (withKeys [] [(5, 7)])).map (fun t => t.pc) = some 0x212 := by decide

/-- 2.6. -/
theorem test_skp_range :
    (runWord 0xE59E (withKeys [] [(5, 0x10)])).map (fun t => (t.fault, t.pc)) = some (some (.addressOutOfRange .keyIndex 0x10), 0x210) := by decide

/-- 2.6. -/
theorem test_sknp :
    (runWord 0xE5A1 (withKeys [] [(5, 7)])).map (fun t => t.pc) = some 0x214 ∧
    (runWord 0xE5A1 (withKeys [7] [(5, 7)])).map (fun t => t.pc) = some 0x212 := by decide

/-- 2.6. -/
theorem test_sknp_range :
    (runWord 0xE5A1 (withKeys [] [(5, 0xFF)])).map (fun t => (t.fault, t.pc)) = some (some (.addressOutOfRange .keyIndex 0xFF), 0x210) := by decide

/-- 2.6. -/
theorem test_ldVxK_waits :
    (runWord 0xF30A (withKeys [] [(3, 0x77)])).map (fun t => (t.V[3], t.pc)) = some (0x77, 0x210) := by decide

/-- 2.6. -/
theorem test_ldVxK_lowest :
    (runWord 0xF30A (withKeys [2, 7] [])).map (fun t => (t.V[3], t.pc)) = some (0x02, 0x212) := by decide

/-- 2.6. -/
theorem test_ldVxDT :
    (runWord 0xF407 (State.reset.setDT 3)).map (fun t => (t.V[4], t.DT)) = some (3, 3) := by decide

/-- 2.6. -/
theorem test_ldDTVx :
    (runWord 0xFA15 (withRegs [(10, 5)])).map (fun t => t.DT) = some 5 := by decide

/-- 2.6. -/
theorem test_ldSTVx :
    (runWord 0xF118 (withRegs [(1, 0x1E)])).map (fun t => (t.ST, t.tone)) = some (0x1E, true) := by decide

/-- P8. -/
theorem test_step_illegal :
    (runWord 0x5011 (State.reset.setPc 0x202)).map (fun t => (t.fault, t.pc)) = some (some (.illegalInstruction 0x5011), 0x202) := by decide

/-- 2.7. -/
theorem test_fetch_at_top :
    (nextOf (step (State.reset.setPc 0xFFE))).map (fun t => (t.fault, t.pc)) = some (none, 0x1000) ∧
    (nextOf (step (State.reset.setPc 0xFFF))).map (fun t => t.fault) = some (some (.addressOutOfRange .fetch 0xFFF)) := by decide

/-! Host operations. -/

/-- 2.8. -/
theorem test_reset_clears_fault :
    (nextOf (perform .reset faulted)).map (fun t => (t.fault, t.DT, t.pc)) = some (none, 0, 0x200) := by decide

/-- 2.8. -/
theorem test_load :
    (nextOf (perform (.load [0xAA]) State.reset)).map (fun t => (t.readBytes 0x200 2, t.pc)) = some ([0xAA, 0], 0x200) := by decide

/-- 2.8. -/
theorem test_load_twice :
    (nextOf (runSchedule [.load [1, 2, 3, 4], .load [9]] State.reset)).map (fun t => t.readBytes 0x200 4) = some [9, 2, 3, 4] := by decide

/-- 2.8: one byte too many. -/
theorem test_load_too_long (bytes : List Byte) (h : bytes.length = 3585) :
    State.reset.loadOp bytes = State.reset.latch (.addressOutOfRange .loadSize 3585) := by
  rw [State.loadOp, if_pos (show State.reset.running = true from rfl), if_pos (by rw [h]; decide), h]

/-- 2.8: the longest program fits. -/
theorem test_load_longest (bytes : List Byte) (h : bytes.length = 3584) : (State.reset.loadOp bytes).fault = none := by
  rw [State.loadOp, if_pos (show State.reset.running = true from rfl), if_neg (by rw [h]; decide)]
  rfl

/-- 2.6. -/
theorem test_setKey :
    (nextOf (perform (.setKey 3 true) State.reset)).map (fun t => (t.key[3], t.key[4])) = some (true, false) := by decide

/-- 2.6. -/
theorem test_tickTimers :
    (nextOf (perform .tickTimers { State.reset with DT := 5, ST := 1 })).map (fun t => (t.DT, t.ST, t.tone)) = some (4, 0, false) := by decide

/-- 2.6, S11. -/
theorem test_tickTimers_floor :
    (nextOf (perform .tickTimers { State.reset with ST := 0xFF })).map (fun t => (t.DT, t.ST)) = some (0, 0xFE) := by decide

/-- 2.6. -/
theorem test_tickTimers_faulted :
    (nextOf (perform .tickTimers faulted)).map (fun t => t.DT) = some 5 := by decide

/-- R186: row-major. -/
theorem test_display :
    ({ State.reset with fb := State.reset.fb.set 1 (Vector.replicate 64 true) }.display[64]?,
      State.reset.display[64]?) = (some true, some false) := by decide

/-- R188. -/
theorem test_observe :
    faulted.observe.DT = 5 ∧ faulted.observe.fault = some (.illegalInstruction 0x5011) ∧ faulted.observe.tone = false := by decide

/-- 60_exceptions.md R170, R172. -/
theorem test_codes :
    (Fault.illegalInstruction 0).code = 1 ∧ (Fault.addressOutOfRange .fetch 0).code = 2 ∧
    AccessKind.fetch.code = 1 ∧ AccessKind.loadSize.code = 7 := by decide

/-! Witnesses: states and operands that meet the hypotheses of each obligation, clause by clause. -/

/-- Both sides of the first clause, and the registers of the second. -/
theorem witness_OnlyTheShiftsIgnoreANibble :
    decodeWord 0x81A6 = some (.shr 1) ∧ (0x8106 : Word) &&& 0xFF0F = 0x81A6 &&& 0xFF0F ∧ decodeWord 0x81AE = some (.shl 1) ∧
    decodeWord 0x81A4 = some (.addReg 1 10) ∧ (14 : Reg) ≠ 15 ∧ (0 : Reg) ≠ 15 ∧ (14 : Reg) ≠ 0 := by decide

/-- A legal word and its row, first and last of the map. -/
theorem witness_DecodeFollowsTheOpcodeMap :
    decodeWord 0x0000 = some .nop ∧ Instr.nop.row ∈ opcodeTable ∧ (0x0000 : Word) &&& Instr.nop.row.mask = Instr.nop.row.bits ∧
    decodeWord 0xFF65 = some (.ldVxMem 15) ∧ (Instr.ldVxMem 15).row ∈ opcodeTable ∧
    (0xFF65 : Word) &&& (Instr.ldVxMem 15).row.mask = (Instr.ldVxMem 15).row.bits := by decide

/-- Each format with its operands at the ends of their ranges. -/
theorem witness_OperandFieldsAreBitsOfTheWord :
    decodeWord 0x1FFF = some (.jp 0xFFF) ∧ decodeWord 0xB000 = some (.jpV0 0) ∧ decodeWord 0x3FFF = some (.seImm 15 0xFF) ∧
    decodeWord 0xC000 = some (.rnd 0 0) ∧ decodeWord 0x5FF0 = some (.seReg 15 15) ∧ decodeWord 0x8007 = some (.subnReg 0 0) ∧
    decodeWord 0xDFFF = some (.drw 15 15 15) ∧ decodeWord 0xD000 = some (.drw 0 0 0) ∧ decodeWord 0xFF65 = some (.ldVxMem 15) ∧
    decodeWord 0xE09E = some (.skp 0) := by decide

/-- The first clause. -/
theorem witness_StepFetchesDecodesExecutes_latched :
    faulted.fault ≠ none := by decide

/-- The second clause, at its first address. -/
theorem witness_StepFetchesDecodesExecutes_fetch :
    (State.reset.setPc 4095).fault = none ∧ 4094 < (State.reset.setPc 4095).pc.toNat := by decide

/-- The third clause at its last address, with an illegal word. -/
theorem witness_StepFetchesDecodesExecutes_illegal :
    let s := ((State.reset.setPc 4094).storeBytes 4094 [0x50, 0x11])
    s.fault = none ∧ s.pc.toNat ≤ 4094 ∧
      (0x5011 : Word).toNat = 256 * (s.readMem s.pc.toNat).toNat + (s.readMem (s.pc.toNat + 1)).toNat ∧ decodeWord 0x5011 = none := by decide

/-- The third clause at its last address, with a legal word. -/
theorem witness_StepFetchesDecodesExecutes_legal :
    let s := ((State.reset.setPc 4094).storeBytes 4094 [0x12, 0x0A])
    s.fault = none ∧ s.pc.toNat ≤ 4094 ∧
      (0x120A : Word).toNat = 256 * (s.readMem s.pc.toNat).toNat + (s.readMem (s.pc.toNat + 1)).toNat ∧
      decodeWord 0x120A = some (.jp 0x20A) := by decide

/-- A step that faults. -/
theorem witness_FaultEntryIsPrecise :
    (State.reset.setPc 4095).fault = none ∧
    step (State.reset.setPc 4095) = .next { State.reset.setPc 4095 with fault := some (.addressOutOfRange .fetch 4095) } := ⟨rfl, rfl⟩

/-- A running state, with an instruction that faults in it and one that does not. -/
theorem witness_InstructionsFaultExactlyAsListed :
    (nested 16).fault = none ∧ ownFault (.call 0) (nested 16) ≠ none ∧ ownFault (.call 0) (nested 15) = none := by decide

/-- A faulted state and a schedule without reset. -/
theorem witness_FaultedMachineIgnoresAllButReset :
    faulted.fault ≠ none ∧
    ∀ op ∈ [HostOp.step 0xB7, .tickTimers, .setKey 3 true, .load [9], .display], op ≠ .reset ∧ op ≠ .initializeVM := by decide

/-- An illegal word below 0x1000. -/
theorem witness_NopOnlyAdvances :
    (0x0FFF : Word).toNat < 0x1000 ∧ (0x0FFF : Word) ≠ 0x0000 ∧ (0x0FFF : Word) ≠ 0x00E0 ∧ (0x0FFF : Word) ≠ 0x00EE := by decide

/-- A jump to itself from a running state. -/
theorem witness_JumpSetsPc :
    (0x200 : Addr12).toNat = State.reset.pc.toNat ∧ State.reset.fault = none := by decide

/-- A sum just above 0x0FFE. -/
theorem witness_JumpV0AddsWithoutWrap :
    (withRegs [(0, 1)]).fault = none ∧ 0x0FFE < (withRegs [(0, 1)]).V[(0 : Reg)].toNat + (0xFFE : Addr12).toNat := by decide

/-- The last level that fits, and a full stack. -/
theorem witness_CallPushesReturnAddress :
    (nested 15).sp.val < 16 ∧ (nested 16).sp.val = 16 := by decide

/-- One level, sixteen levels, and none. -/
theorem witness_ReturnPopsReturnAddress :
    (nested 1).sp.val = (0 : Fin 16).val + 1 ∧ (nested 16).sp.val = (15 : Fin 16).val + 1 ∧ (nested 0).sp.val = 0 := by decide

/-- Sixteen nested levels from an empty stack, one on fifteen. -/
theorem witness_NestedCallsReturnInOrder :
    (nested 0).sp.val + (List.replicate 16 (0x300 : Addr12)).length ≤ 16 ∧ (nested 15).sp.val + [(0x300 : Addr12)].length ≤ 16 := by decide

/-- Illegal words of the two families. -/
theorem witness_SkipOnRegisters :
    ((0x5121 : Word).toNat / 0x1000 = 5 ∧ (0x5121 : Word).toNat % 16 ≠ 0) ∧ ((0x912F : Word).toNat / 0x1000 = 9 ∧ (0x912F : Word).toNat % 16 ≠ 0) := by decide

/-- The zero mask. -/
theorem witness_RandomByteIsMasked :
    (0 : Byte) = 0 := by decide

/-- An instruction that is no RND. -/
theorem witness_OnlyRndUsesTheRandomByte :
    ∀ (x : Reg) (nn : Byte), Instr.cls ≠ .rnd x nn := fun _ _ h => by cases h

/-- The last range that fits, and the first that does not, with an address outside on each side. -/
theorem witness_StoreDecimalDigits :
    MemoryCanonical (State.reset.setI 0xFFD) ∧ (State.reset.setI 0xFFD).effAddr 2 ≤ 4095 ∧ 4095 < (State.reset.setI 0xFFE).effAddr 2 ∧
    0xFFC < (State.reset.setI 0xFFD).effAddr 0 ∧ (State.reset.setI 0xFFD).effAddr 2 < 4096 ∧ MemoryCanonical (State.reset.setI 0xFFE) := ⟨rfl, by decide, by decide, by decide, by decide, rfl⟩

/-- All sixteen registers at the last place they fit, and one further; the glyph area. -/
theorem witness_StoreRegistersFromI :
    MemoryCanonical (State.reset.setI 0xFF0) ∧ (State.reset.setI 0xFF0).effAddr (15 : Reg).val ≤ 4095 ∧
    MemoryCanonical (State.reset.setI 0xFF1) ∧ 4095 < (State.reset.setI 0xFF1).effAddr (15 : Reg).val ∧
    MemoryCanonical State.reset ∧ State.reset.effAddr (0 : Reg).val ≤ 4095 := ⟨rfl, by decide, rfl, by decide, rfl, by decide⟩

/-- The last range that fits and the first that does not. -/
theorem witness_LoadRegistersFromI :
    (State.reset.setI 0xFF0).effAddr (15 : Reg).val ≤ 4095 ∧ 4095 < (State.reset.setI 0x1000).effAddr (0 : Reg).val := by decide

/-- P5 at its fourth step: the store puts LD VC, 0x42 at the next address; and the last address. -/
theorem witness_StoreIsSeenByTheNextFetch :
    let s := { withRegs [(0, 0x6C), (1, 0x42)] with I := 0x208, pc := 0x206 }
    let u := { withRegs [(0, 0x6C), (1, 0x42)] with I := 4094, pc := 4092 }
    MemoryCanonical s ∧ s.fault = none ∧ 1 ≤ (1 : Reg).val ∧ s.pc.toNat ≤ 4092 ∧ s.I = s.pc + 2 ∧
      s.effAddr (1 : Reg).val ≤ 4095 ∧ decodeWord (wordOfBytes s.V[(0 : Reg)] s.V[(1 : Reg)]) = some (.ldImm 12 0x42) ∧
      u.pc.toNat ≤ 4092 ∧ u.I = u.pc + 2 ∧ u.effAddr (1 : Reg).val ≤ 4095 := ⟨rfl, rfl, by decide, by decide, by decide, by decide, by decide, by decide, by decide, by decide⟩

/-- A memory that lists two bytes, built in two orders. -/
theorem witness_EqualMemoriesAreEqualData :
    let m := Memory.write defaultGlyph (Memory.write defaultGlyph [] 0x200 1) 0x300 2
    let n := Memory.write defaultGlyph (Memory.write defaultGlyph [] 0x300 2) 0x200 1
    Memory.wf defaultGlyph m = true ∧ Memory.wf defaultGlyph n = true ∧ m = n := by decide

/-- A wrapped sprite with a set pixel (63, 31) and an unset pixel; the range at its last place and one further; no rows. -/
theorem witness_DrawXorsTheWrappedSprite_covered :
    SpriteCovers (atIndex 0xFFE [(0, 63), (1, 30)] [0xC0, 0xC0]) 0 1 2 31 0 :=
  ⟨1, 1, by decide, by decide, by decide, by decide, by decide⟩

/-- A pixel the sprite leaves alone: no column of an 8-pixel row at 63 reaches column 7. -/
theorem witness_DrawXorsTheWrappedSprite_uncovered :
    ¬ SpriteCovers (atIndex 0xFFE [(0, 63), (1, 30)] [0xC0, 0xC0]) 0 1 2 31 7 := by
  have h : ((atIndex 0xFFE [(0, 63), (1, 30)] [0xC0, 0xC0]).V[(0 : Reg)]).toNat = 63 := by decide
  rintro ⟨row, col, -, hcol, hx, -⟩
  rw [h] at hx
  simp at hx
  omega

/-- The last range that fits, the first that does not, and no rows at all. -/
theorem witness_DrawXorsTheWrappedSprite_range :
    (State.reset.setI 0xFFE).effAddr ((2 : Fin 16).val - 1) ≤ 4095 ∧ 4095 < (State.reset.setI 0xFFF).effAddr ((2 : Fin 16).val - 1) ∧
    (2 : Fin 16).val ≠ 0 ∧ (0 : Fin 16).val = 0 := by decide

/-- The premise that no pixel was on holds on a dark screen. -/
theorem witness_DrawXorsTheWrappedSprite_dark :
    ¬ ∃ (j : Fin 32) (k : Fin 64), SpriteCovers State.reset 0 1 1 j k ∧ State.reset.fb[j][k] = true := by
  rintro ⟨j, k, -, h⟩
  simp [State.reset, blankScreen] at h

/-- The premise that a covered pixel was on holds on a lit screen. -/
theorem witness_DrawXorsTheWrappedSprite_lit :
    let s := { atIndex 0x300 [] [0x80] with fb := Vector.replicate 32 (Vector.replicate 64 true) }
    SpriteCovers s 0 1 1 0 0 ∧ s.fb[(0 : Fin 32)][(0 : Fin 64)] = true :=
  ⟨⟨0, 0, by decide, by decide, by decide, by decide, by decide⟩, rfl⟩

/-- DV1: the coordinates are the same after the first draw. -/
theorem witness_DrawingTwiceRestoresTheScreen :
    let s := atIndex 0x300 [(0, 10), (1, 5)] [0xFF]
    s.effAddr ((1 : Fin 16).val - 1) ≤ 4095 ∧ ∃ t, exec (.drw 0 1 1) s = .next t ∧ t.V[(0 : Reg)] = s.V[(0 : Reg)] ∧
      t.V[(1 : Reg)] = s.V[(1 : Reg)] :=
  ⟨by decide, _, rfl, by decide, by decide⟩

/-- Keys 0 and 15, and the first value above. -/
theorem witness_SkipOnKey :
    (withKeys [] [(5, 0)]).V[(5 : Reg)].toNat = (0 : Fin 16).val ∧ (withKeys [] [(5, 15)]).V[(5 : Reg)].toNat = (15 : Fin 16).val ∧
    15 < (withKeys [] [(5, 16)]).V[(5 : Reg)].toNat := by decide

/-- Key 15 alone, key 0, and no key. -/
theorem witness_KeyWaitTakesTheLowestKey :
    ((withKeys [15] []).key[(15 : Fin 16)] = true ∧ ∀ j : Fin 16, j < 15 → (withKeys [15] []).key[j] = false) ∧
    ((withKeys [0] []).key[(0 : Fin 16)] = true ∧ ∀ j : Fin 16, j < 0 → (withKeys [0] []).key[j] = false) ∧
    ∀ k : Fin 16, (withKeys [] []).key[k] = false := by decide

/-- A step that runs the instruction with no key pressed, at the last address. -/
theorem witness_KeyWaitTakesTheLowestKey_step :
    let s := (State.reset.setPc 4094).storeBytes 4094 [0xF3, 0x0A]
    s.fault = none ∧ s.pc.toNat ≤ 4094 ∧
      decodeWord (wordOfBytes (s.readMem s.pc.toNat) (s.readMem (s.pc.toNat + 1))) = some (.ldVxK 3) ∧
      ∀ k : Fin 16, s.key[k] = false := by decide

/-- For each kind of state an instruction that changes it. -/
theorem witness_InstructionsWriteOnlyTheirOwnState :
    (∃ t, exec .cls { State.reset with fb := Vector.replicate 32 (Vector.replicate 64 true) } = .next t ∧
      t.fb[(0 : Fin 32)][(0 : Fin 64)] = false) ∧
    (∃ t, exec (.ldBVx 3) (atIndex 0x300 [(3, 157)] []) = .next t ∧ t.mem ≠ State.reset.mem) ∧
    (∃ t, exec (.call 0x300) State.reset = .next t ∧ t.stack ≠ State.reset.stack ∧ t.sp ≠ State.reset.sp) ∧
    (∃ t, exec (.ldI 0x300) State.reset = .next t ∧ t.I ≠ State.reset.I) ∧
    (∃ t, exec (.ldDTVx 3) (withRegs [(3, 157)]) = .next t ∧ t.DT ≠ State.reset.DT) ∧
    (∃ t, exec (.ldSTVx 3) (withRegs [(3, 157)]) = .next t ∧ t.ST ≠ State.reset.ST) ∧
    (∃ t, exec (.rnd 3 0) State.reset = .next t ∧ t.draws ≠ State.reset.draws) :=
  ⟨⟨_, rfl, by decide⟩, ⟨_, rfl, by decide⟩, ⟨_, rfl, by decide, by decide⟩, ⟨_, rfl, by decide⟩, ⟨_, rfl, by decide⟩,
    ⟨_, rfl, by decide⟩, ⟨_, rfl, by decide⟩⟩

/-- An addition changes its destination and VF. -/
theorem witness_RegistersChangeOnlyAsNamed :
    ∃ t, exec (.addReg 1 2) (withRegs [(1, 0xFF), (2, 1)]) = .next t ∧
      t.V[(1 : Reg)] ≠ (withRegs [(1, 0xFF), (2, 1)]).V[(1 : Reg)] ∧
      t.V[(15 : Reg)] ≠ (withRegs [(1, 0xFF), (2, 1)]).V[(15 : Reg)] :=
  ⟨_, rfl, by decide, by decide⟩

/-- Both sides of the statement: an instruction that writes ST, and one that does not. -/
theorem witness_NoInstructionReadsTheSoundTimer :
    (∀ x, Instr.cls ≠ .ldSTVx x) ∧ ∃ x, Instr.ldSTVx 3 = .ldSTVx x :=
  ⟨fun _ h => (by cases h), 3, rfl⟩

/-- The first and the last byte of the glyph area and of the rest of memory, in each of the three kinds of state. -/
theorem witness_ResetLeavesTheListedValues :
    (0 : Fin 80).val = 0 ∧ (79 : Fin 80).val = 79 ∧ faulted.resetOp.readMem 79 = defaultGlyph[(79 : Fin 80)] ∧
    faulted.resetOp.readMem 80 = 0 ∧ State.reset.readMem 4095 = 0 ∧ (newVM (Vector.replicate 80 7)).readMem 0 = 7 := by
  decide

/-- A faulted state; one byte too many; the longest program, with an address outside on either side. -/
theorem witness_LoadCopiesBytesFrom0x200 :
    faulted.fault ≠ none ∧ State.reset.fault = none ∧ 3584 < (List.replicate 3585 (0xAA : Byte)).length ∧
    (List.replicate 3584 (0xAA : Byte)).length ≤ 3584 ∧ 0x1FF < 0x200 ∧
    0x200 + (List.replicate 3584 (0xAA : Byte)).length ≤ 4096 ∧ MemoryCanonical State.reset ∧
    3583 < (List.replicate 3584 (0xAA : Byte)).length := by
  simp only [List.length_replicate]
  exact ⟨by decide, rfl, by decide, by decide, by decide, by decide, rfl, by decide⟩

/-- A running and a faulted state. -/
theorem witness_SetKeySetsOneFlag :
    State.reset.fault = none ∧ faulted.fault ≠ none := by decide

/-- A running and a faulted state, and instructions that write a timer and that do not. -/
theorem witness_TickDecrementsBothTimers :
    State.reset.fault = none ∧ faulted.fault ≠ none ∧ (∃ t, exec (.ldDTVx 3) State.reset = .next t) ∧ ∃ t, exec .cls State.reset = .next t := ⟨rfl, by decide, ⟨_, rfl⟩, ⟨_, rfl⟩⟩

/-- P1 at its end; and the last address a jump to itself can stand at. -/
theorem witness_IdleStateStaysIdle :
    Idle ((State.reset.setPc 0x20C).storeBytes 0x20C [0x12, 0x0C]) ∧ Idle ((State.reset.setPc 4094).storeBytes 4094 [0x1F, 0xFE]) := ⟨⟨by decide, by decide, by decide⟩, by decide, by decide, by decide⟩

/-- A canonical memory that lists bytes, and a step from it. -/
theorem witness_StepKeepsMemoryCanonical :
    MemoryCanonical ((atIndex 0x300 [(3, 157)] []).storeBytes 0x200 [0xF3, 0x33]) ∧
    ∃ t, step ((atIndex 0x300 [(3, 157)] []).storeBytes 0x200 [0xF3, 0x33]) = .next t ∧ t.readMem 0x302 = 7 :=
  ⟨rfl, _, rfl, by decide⟩

/-- The bounds at their largest values, and a step that reaches 0x10FE. -/
theorem witness_StepKeepsCounterBounded :
    CounterBounded { State.reset with pc := 0x10FE, stack := Vector.replicate 16 0x1000 } ∧
    CounterBounded ((withRegs [(0, 0xFF)]).storeBytes 0x200 [0xBF, 0xFF]) ∧
    ∃ t, step ((withRegs [(0, 0xFF)]).storeBytes 0x200 [0xBF, 0xFF]) = .next t ∧ t.pc = 0x10FE :=
  ⟨⟨by decide, by decide⟩, ⟨by decide, by decide⟩, _, rfl, by decide⟩

/-- A state with both invariants that is not the reset state. -/
theorem witness_SchedulesKeepInvariants :
    MemoryCanonical ((nested 16).storeBytes 0x200 [0x22, 0x00]) ∧ CounterBounded ((nested 16).storeBytes 0x200 [0x22, 0x00]) :=
  ⟨rfl, by decide, by decide⟩

/-- RND at the last address, and a step that executes no RND. -/
theorem witness_StepTakesTheRandomByteAsInput :
    (let s := (State.reset.setPc 4094).storeBytes 4094 [0xC2, 0x0F]
     s.fault = none ∧ s.pc.toNat ≤ 4094 ∧
      decodeWord (wordOfBytes (s.readMem s.pc.toNat) (s.readMem (s.pc.toNat + 1))) = some (.rnd 2 0x0F)) ∧
    ¬ ∃ (x : Reg) (nn : Byte), State.reset.fault = none ∧ State.reset.pc.toNat ≤ 4094 ∧
      decodeWord (wordOfBytes (State.reset.readMem State.reset.pc.toNat)
        (State.reset.readMem (State.reset.pc.toNat + 1))) = some (.rnd x nn) := by
  refine ⟨by decide, ?_⟩
  rintro ⟨x, nn, -, -, h⟩
  rw [show decodeWord (wordOfBytes (State.reset.readMem State.reset.pc.toNat)
    (State.reset.readMem (State.reset.pc.toNat + 1))) = some .nop by decide] at h
  cases h

/-- Two different states with one glyph table. -/
theorem witness_ResetRunsAreDetermined : State.reset.glyph = faulted.glyph ∧ State.reset ≠ faulted :=
  ⟨rfl, fun h => nomatch congrArg State.fault h⟩

end Sys2Proof.Tests
end

/-! PROOFS. The family 10_state.md: what an instruction writes, what reset leaves, and the bounds of R24. -/

namespace Sys2Proof.Proofs

open Sys2Proof.Machine Sys2Proof.Safety

/-! ### The normal form of an instruction

Every instruction either takes its own fault (`ownFault`) or completes: it makes its writes and sets `pc`. `exec_eq` says
so once; the columns of the access matrix (10_state.md R34) are then read off `writes`, and control transfer off `nextPc`. -/

/-- Everything a completed instruction writes but `pc`. -/
def writes : Instr → State → State
  | .cls, s => s.setFb blankScreen
  | .ret, s => s.pop
  | .call _, s =>
    { s with stack := s.stack.setIfInBounds s.sp.val s.npc, sp := ⟨min (s.sp.val + 1) 16, by omega⟩ }
  | .ldImm x nn, s => s.setV x nn
  | .addImm x nn, s => s.setV x (s.V[x] + nn)
  | .ldReg x y, s => s.setV x s.V[y]
  | .orReg x y, s => s.setV x (s.V[x] ||| s.V[y])
  | .andReg x y, s => s.setV x (s.V[x] &&& s.V[y])
  | .xorReg x y, s => s.setV x (s.V[x] ^^^ s.V[y])
  | .addReg x y, s => s.setResult x ((sum9 s.V[x] s.V[y]).truncate 8) (carryOut s.V[x] s.V[y])
  | .subReg x y, s => s.setResult x (s.V[x] - s.V[y]) (noBorrow s.V[x] s.V[y])
  | .shr x, s => s.setResult x (s.V[x] >>> 1) (shiftedOutRight s.V[x])
  | .subnReg x y, s => s.setResult x (s.V[y] - s.V[x]) (noBorrow s.V[y] s.V[x])
  | .shl x, s => s.setResult x (s.V[x] <<< 1) (shiftedOutLeft s.V[x])
  | .ldI nnn, s => s.setI (zextAddr nnn)
  | .rnd x nn, s => rndWith s.rand x nn s.useRand
  | .drw x y n, s => s.drawn x y (s.readBytes (s.effAddr 0) n.val)
  | .ldVxDT x, s => s.setV x s.DT
  | .ldVxK x, s => { s with V := (lowestPressed s.key).elim s.V fun k => s.V.set x (BitVec.ofNat 8 k) }
  | .ldDTVx x, s => s.setDT s.V[x]
  | .ldSTVx x, s => s.setST s.V[x]
  | .addIVx x, s => s.setI (s.I + zextByte s.V[x])
  | .ldFVx x, s => s.setI (glyphAddr s.V[x])
  | .ldBVx x, s => s.storeBytes (s.effAddr 0) (decimalDigits s.V[x])
  | .ldMemVx x, s => s.storeBytes (s.effAddr 0) (s.regsUpTo x)
  | .ldVxMem x, s => { s with V := loadRegs s.V 0 (s.readBytes (s.effAddr 0) (x.val + 1)) }
  | .nop, s | .jp _, s | .seImm _ _, s | .sneImm _ _, s | .seReg _ _, s | .sneReg _ _, s | .jpV0 _, s | .skp _, s
  | .sknp _, s => s

/-- Where a skip goes (41_skip.md R114). -/
def skipPc (c : Bool) (s : State) : Word := if c then s.npc + 2 else s.npc

/-- Whether the key that a byte names is in the given position; a byte that names none is no key in either. -/
def keyIs (pressed : Bool) (b : Byte) (s : State) : Bool := (keyIndex b).any fun k => s.key[k] == pressed

/-- Where a completed instruction leaves `pc`. -/
def nextPc : Instr → State → Word
  | .ret, s => s.stack[s.sp.val - 1]
  | .jp nnn, _ | .call nnn, _ => zextAddr nnn
  | .jpV0 nnn, s => zextByte s.V[0] + zextAddr nnn
  | .seImm x nn, s => skipPc (s.V[x] == nn) s
  | .sneImm x nn, s => skipPc (s.V[x] != nn) s
  | .seReg x y, s => skipPc (s.V[x] == s.V[y]) s
  | .sneReg x y, s => skipPc (s.V[x] != s.V[y]) s
  | .skp x, s => skipPc (keyIs true s.V[x] s) s
  | .sknp x, s => skipPc (keyIs false s.V[x] s) s
  | .ldVxK _, s => if (lowestPressed s.key).isSome then s.npc else s.pc
  | _, s => s.npc

/-- The state a completed instruction leaves. -/
def completed (i : Instr) (s : State) : State := (writes i s).setPc (nextPc i s)

/-- The state an instruction leaves: its own fault latched, or its completion. -/
def outcome (i : Instr) (s : State) : State := (ownFault i s).elim (completed i s) s.latch

/-- A checked access that completes in `u`, in the form of `outcome`. -/
theorem checkRange_next (kind : AccessKind) (last : Nat) (s u : State) :
    checkRange kind last s (.next u) =
      .next ((if 4095 < last then some (Fault.addressOutOfRange kind last) else none).elim u s.latch) := by
  by_cases h : 4095 < last
  · rw [checkRange_fault h, if_pos h]; rfl
  · rw [checkRange_ok (by omega), if_neg h]; rfl

theorem execRet_eq (s : State) : exec .ret s = .next (outcome .ret s) := by
  by_cases h : s.sp.val = 0
  · rw [outcome, ownFault, if_pos h]
    exact dif_pos h
  · rw [outcome, ownFault, if_neg h]
    exact dif_neg h

/-- A push on a stack with room, without the proof that there is room. -/
theorem push_eq (s : State) (w : Word) (h : s.sp.val < 16) :
    s.push w h = { s with stack := s.stack.setIfInBounds s.sp.val w, sp := ⟨min (s.sp.val + 1) 16, by omega⟩ } := by
  have hsp : min (s.sp.val + 1) 16 = s.sp.val + 1 := by omega
  have hstack : s.stack.setIfInBounds s.sp.val w = s.stack.set s.sp.val w h := by
    ext k hk
    simp only [Vector.getElem_set, Vector.getElem_setIfInBounds]
  simp only [State.push, hsp, hstack]

theorem execCall_eq (nnn : Addr12) (s : State) : exec (.call nnn) s = .next (outcome (.call nnn) s) := by
  by_cases h : s.sp.val = 16
  · rw [outcome, ownFault, if_pos h]
    exact dif_pos h
  · rw [outcome, ownFault, if_neg h, Option.elim_none, completed, writes, ← push_eq s s.npc (by omega)]
    exact dif_neg h

theorem execDrw_eq (x y : Reg) (n : Fin 16) (s : State) :
    exec (.drw x y n) s = .next (outcome (.drw x y n) s) := by
  by_cases h : n.val = 0
  · obtain rfl : n = 0 := Fin.ext h
    rfl
  · have hlast : s.effAddr (n.val - 1) = s.I.toNat + n.val - 1 := by rw [State.effAddr]; omega
    have hpos : 0 < n.val := by omega
    simp only [exec, execDrw, if_neg h, advance, checkRange_next, outcome, ownFault, hlast, hpos, true_and]
    rfl

/-- The two skips on a key, which fault on a byte that names none (45_keypad_timers.md R160, R161). -/
theorem skipOnKey_eq (pressed : Bool) (x : Reg) (s : State) :
    skipOnKey pressed x s = .next ((if 15 < s.V[x].toNat then
      some (Fault.addressOutOfRange .keyIndex s.V[x].toNat) else none).elim
        (s.setPc (skipPc (keyIs pressed s.V[x] s) s)) s.latch) := by
  by_cases h : 15 < s.V[x].toNat
  · rw [skipOnKey, keyIndex_none h, if_pos h]
    rfl
  · rw [skipOnKey, keyIs, keyIndex_some (by omega), if_neg h]
    rfl

theorem execLdVxK_eq (x : Reg) (s : State) : exec (.ldVxK x) s = .next (outcome (.ldVxK x) s) := by
  cases h : lowestPressed s.key with
  | none =>
    simp only [exec, execLdVxK, outcome, ownFault, completed, writes, nextPc, h]
    rfl
  | some k =>
    simp only [exec, execLdVxK, outcome, ownFault, completed, writes, nextPc, h]
    rfl

/-- Every instruction answers a next state: its own fault latched, or its completion (60_exceptions.md R172, R173). -/
theorem exec_eq (i : Instr) (s : State) : exec i s = .next (outcome i s) := by
  cases i
  case ret => exact execRet_eq s
  case call nnn => exact execCall_eq nnn s
  case drw x y n => exact execDrw_eq x y n s
  case skp x => exact skipOnKey_eq true x s
  case sknp x => exact skipOnKey_eq false x s
  case ldVxK x => exact execLdVxK_eq x s
  case ldBVx x => exact checkRange_next .memWrite (s.effAddr 2) s _
  case ldMemVx x => exact checkRange_next .memWrite (s.effAddr x.val) s _
  case ldVxMem x => exact checkRange_next .memRead (s.effAddr x.val) s _
  all_goals rfl

/-- All an instruction can do: latch its own fault, or complete. -/
theorem exec_cases {i : Instr} {s t : State} (h : exec i s = .next t) :
    (∃ f, ownFault i s = some f ∧ t = s.latch f) ∨ (ownFault i s = none ∧ t = completed i s) := by
  rw [exec_eq, Host.Outcome.next.injEq] at h
  subst h
  cases hf : ownFault i s with
  | none => exact .inr ⟨rfl, by simp [outcome, hf]⟩
  | some f => exact .inl ⟨f, rfl, by simp [outcome, hf]⟩

/-! ### The bounds of R24 -/

theorem add_two_nat {w : Word} (h : w.toNat ≤ 4096) : (w + 2).toNat = w.toNat + 2 := by
  have htwo : (2 : Word).toNat = 2 := rfl
  rw [BitVec.toNat_add, htwo]
  omega

theorem npc_nat {s : State} (hpc : s.pc.toNat ≤ 4094) : s.npc.toNat = s.pc.toNat + 2 := add_two_nat (by omega)

theorem skipPc_le {s : State} (hpc : s.pc.toNat ≤ 4094) (c : Bool) : (skipPc c s).toNat ≤ 0x1002 := by
  have hnpc := npc_nat hpc
  have hskip := add_two_nat (w := s.npc) (by omega)
  rw [skipPc]
  split <;> omega

theorem zextAddr_nat (nnn : Addr12) : (zextAddr nnn).toNat = nnn.toNat :=
  BitVec.toNat_setWidth_of_le (by decide)

theorem zextByte_nat (b : Byte) : (zextByte b).toNat = b.toNat :=
  BitVec.toNat_setWidth_of_le (by decide)

/-- The target of JP V0 is a sum that 16 bits hold, so it does not wrap (40_flow.md R104). -/
theorem jpV0_target_nat (b : Byte) (nnn : Addr12) : (zextByte b + zextAddr nnn).toNat = b.toNat + nnn.toNat := by
  rw [BitVec.toNat_add, zextByte_nat, zextAddr_nat]
  omega

/-- The largest value comes from JP V0: 0xFF + 0xFFF (R24). -/
theorem nextPc_le {s : State} (hs : CounterBounded s) (hpc : s.pc.toNat ≤ 4094) (i : Instr) :
    (nextPc i s).toNat ≤ 0x10FE := by
  obtain ⟨-, hstack⟩ := hs
  have hnpc := npc_nat hpc
  cases i
  case ret => exact (hstack ⟨s.sp.val - 1, by omega⟩).trans (by decide)
  case jp nnn | call nnn =>
    rw [nextPc, zextAddr_nat]
    omega
  case jpV0 nnn =>
    rw [nextPc, jpV0_target_nat]
    omega
  case seImm x nn | sneImm x nn | seReg x y | sneReg x y | skp x | sknp x =>
    exact (skipPc_le hpc _).trans (by decide)
  case ldVxK x =>
    rw [nextPc]
    split <;> omega
  all_goals
    show s.npc.toNat ≤ 0x10FE
    omega

/-! ### The columns of the access matrix (10_state.md R34): what a completed instruction leaves alone -/

theorem writes_key (i : Instr) (s : State) : (writes i s).key = s.key := by cases i <;> rfl

theorem writes_glyph (i : Instr) (s : State) : (writes i s).glyph = s.glyph := by cases i <;> rfl

theorem writes_fb (i : Instr) (s : State) : (writes i s).fb = s.fb ∨ i = .cls ∨ ∃ x y n, i = .drw x y n := by
  cases i
  case cls => exact .inr (.inl rfl)
  case drw x y n => exact .inr (.inr ⟨x, y, n, rfl⟩)
  all_goals exact .inl rfl

theorem writes_mem (i : Instr) (s : State) : (writes i s).mem = s.mem ∨ ∃ x, i = .ldBVx x ∨ i = .ldMemVx x := by
  cases i
  case ldBVx x => exact .inr ⟨x, .inl rfl⟩
  case ldMemVx x => exact .inr ⟨x, .inr rfl⟩
  all_goals exact .inl rfl

theorem writes_stack (i : Instr) (s : State) : (writes i s).stack = s.stack ∨ ∃ nnn, i = .call nnn := by
  cases i
  case call nnn => exact .inr ⟨nnn, rfl⟩
  all_goals exact .inl rfl

theorem writes_sp (i : Instr) (s : State) : (writes i s).sp = s.sp ∨ i = .ret ∨ ∃ nnn, i = .call nnn := by
  cases i
  case ret => exact .inr (.inl rfl)
  case call nnn => exact .inr (.inr ⟨nnn, rfl⟩)
  all_goals exact .inl rfl

theorem writes_I (i : Instr) (s : State) :
    (writes i s).I = s.I ∨ (∃ nnn, i = .ldI nnn) ∨ ∃ x, i = .addIVx x ∨ i = .ldFVx x := by
  cases i
  case ldI nnn => exact .inr (.inl ⟨nnn, rfl⟩)
  case addIVx x => exact .inr (.inr ⟨x, .inl rfl⟩)
  case ldFVx x => exact .inr (.inr ⟨x, .inr rfl⟩)
  all_goals exact .inl rfl

theorem writes_DT (i : Instr) (s : State) : (writes i s).DT = s.DT ∨ ∃ x, i = .ldDTVx x := by
  cases i
  case ldDTVx x => exact .inr ⟨x, rfl⟩
  all_goals exact .inl rfl

theorem writes_ST (i : Instr) (s : State) : (writes i s).ST = s.ST ∨ ∃ x, i = .ldSTVx x := by
  cases i
  case ldSTVx x => exact .inr ⟨x, rfl⟩
  all_goals exact .inl rfl

theorem writes_draws (i : Instr) (s : State) : (writes i s).draws = s.draws ∨ ∃ x nn, i = .rnd x nn := by
  cases i
  case rnd x nn => exact .inr ⟨x, nn, rfl⟩
  all_goals exact .inl rfl

/-- CALL writes one slot, with the address of the next instruction. -/
theorem writes_call_stack (nnn : Addr12) (s : State) (k : Fin 16) :
    (writes (.call nnn) s).stack[k] = if s.sp.val = k.val then s.npc else s.stack[k] :=
  Vector.getElem_setIfInBounds k.isLt

theorem writes_stack_le {s : State} (hs : CounterBounded s) (hpc : s.pc.toNat ≤ 4094) (i : Instr) (k : Fin 16) :
    (writes i s).stack[k].toNat ≤ 0x1000 := by
  obtain ⟨-, hstack⟩ := hs
  obtain hsame | ⟨nnn, rfl⟩ := writes_stack i s
  · rw [hsame]
    exact hstack k
  · rw [writes_call_stack]
    split
    · have := npc_nat hpc
      omega
    · exact hstack k

theorem exec_keeps_counterBounded {i : Instr} {s t : State} (hs : CounterBounded s) (hpc : s.pc.toNat ≤ 4094)
    (h : exec i s = .next t) : CounterBounded t := by
  obtain ⟨f, -, rfl⟩ | ⟨-, rfl⟩ := exec_cases h
  · exact hs
  · exact ⟨nextPc_le hs hpc i, writes_stack_le hs hpc i⟩

/-- Settles O52: a step that executes has fetched, so `pc` was at most 4094; any other step moves nothing. -/
theorem stepKeepsCounterBounded : Obligations.StepKeepsCounterBounded := by
  intro s t hs h
  obtain ⟨-, rfl⟩ | ⟨-, -, rfl⟩ | ⟨-, -, -, rfl⟩ | ⟨-, hpc, i, -, hi⟩ := step_cases h
  · exact hs
  · exact hs
  · exact hs
  · exact exec_keeps_counterBounded hs hpc hi

/-- Settles O41, column by column of R34. -/
theorem instructionsWriteOnlyTheirOwnState : Obligations.InstructionsWriteOnlyTheirOwnState := by
  intro i s t h
  obtain ⟨f, -, rfl⟩ | ⟨-, rfl⟩ := exec_cases h
  · simp
  · exact ⟨writes_key i s, writes_glyph i s, (writes_fb i s).resolve_left, (writes_mem i s).resolve_left,
      (writes_stack i s).resolve_left, (writes_sp i s).resolve_left, (writes_I i s).resolve_left,
      (writes_DT i s).resolve_left, (writes_ST i s).resolve_left, (writes_draws i s).resolve_left⟩

/-! ### The V column of R34 -/

theorem eq_of_setV_ne {s : State} {x r : Reg} {b : Byte} (h : (s.setV x b).V[r] ≠ s.V[r]) : r = x := by
  by_contra hx
  exact h (by rw [setV_getElem, if_neg (Ne.symm hx)])

theorem eq_of_setResult_ne {s : State} {x r : Reg} {b : Byte} {flag : Bool}
    (h : (s.setResult x b flag).V[r] ≠ s.V[r]) : r = x ∨ r = vf := by
  by_contra hx
  obtain ⟨hx, hvf⟩ := not_or.1 hx
  exact h (by rw [setResult_getElem, if_neg hvf, if_neg (Ne.symm hx)])

theorem lt_of_loadRegs_ne {V : Vector Byte 16} {bs : List Byte} {r : Reg} (h : (loadRegs V 0 bs)[r] ≠ V[r]) :
    r.val < bs.length := by
  by_contra hr
  exact h ((loadRegs_getElem V 0 bs r.val r.isLt).trans (dif_neg (by omega)))

/-- LD Vx, K writes its destination, or nothing while it waits. -/
theorem eq_of_keyWait_ne {s : State} {x r : Reg} (h : (writes (.ldVxK x) s).V[r] ≠ s.V[r]) : r = x := by
  cases hk : lowestPressed s.key with
  | none => exact absurd (by rw [writes, hk]; rfl) h
  | some k =>
    rw [writes, hk] at h
    exact eq_of_setV_ne h

/-- The destination, VF of the six flag instructions, or the range of LD Vx, [I]. -/
theorem writes_V {i : Instr} {s : State} {r : Reg} (h : (writes i s).V[r] ≠ s.V[r]) :
    (∃ nn, i = .ldImm r nn ∨ i = .addImm r nn ∨ i = .rnd r nn) ∨
      (∃ y, i = .ldReg r y ∨ i = .orReg r y ∨ i = .andReg r y ∨ i = .xorReg r y) ∨
      (∃ x y, (i = .addReg x y ∨ i = .subReg x y ∨ i = .subnReg x y) ∧ (r = x ∨ r = 15)) ∨
      (∃ x, (i = .shr x ∨ i = .shl x) ∧ (r = x ∨ r = 15)) ∨
      (∃ x y n, i = .drw x y n ∧ r = 15) ∨ i = .ldVxDT r ∨ i = .ldVxK r ∨
      (∃ x, i = .ldVxMem x ∧ r ≤ x) := by
  cases i
  case ldImm x nn | addImm x nn | ldReg x y | orReg x y | andReg x y | xorReg x y | ldVxDT x =>
    obtain rfl := eq_of_setV_ne h
    simp
  case rnd x nn =>
    obtain rfl : r = x := eq_of_setV_ne (s := s.useRand) h
    simp
  case addReg x y | subReg x y | subnReg x y | shr x | shl x =>
    have hr : r = x ∨ r = 15 := eq_of_setResult_ne h
    simp [hr]
  case drw x y n =>
    have hr : r = 15 := eq_of_setV_ne (s := s.setFb _) h
    simp [hr]
  case ldVxK x =>
    obtain rfl := eq_of_keyWait_ne h
    simp
  case ldVxMem x =>
    have hr := lt_of_loadRegs_ne h
    rw [readBytes_length] at hr
    have hrx : r ≤ x := Fin.le_def.2 (by omega)
    simp [hrx]
  all_goals exact absurd rfl h

/-- Settles O42: the V column of the access matrix; a fault writes no register. -/
theorem registersChangeOnlyAsNamed : Obligations.RegistersChangeOnlyAsNamed := by
  intro i s t r h hr
  obtain ⟨f, -, rfl⟩ | ⟨-, rfl⟩ := exec_cases h
  · exact absurd rfl hr
  · exact writes_V hr

/-! ### The sound timer is read by nothing (10_state.md R30) -/

theorem ownFault_setST (i : Instr) (s : State) (b : Byte) : ownFault i (s.setST b) = ownFault i s := by
  cases i <;> rfl

theorem nextPc_setST (i : Instr) (s : State) (b : Byte) : nextPc i (s.setST b) = nextPc i s := by
  cases i <;> rfl

theorem writes_setST {i : Instr} (hi : ∀ x, i ≠ .ldSTVx x) (s : State) (b : Byte) :
    writes i (s.setST b) = (writes i s).setST b := by
  cases i
  case ldSTVx x => exact absurd rfl (hi x)
  all_goals rfl

theorem outcome_setST {i : Instr} (hi : ∀ x, i ≠ .ldSTVx x) (s : State) (b : Byte) :
    outcome i (s.setST b) = (outcome i s).setST b := by
  simp only [outcome, completed, ownFault_setST, nextPc_setST, writes_setST hi]
  cases ownFault i s <;> rfl

/-- Settles O43: LD ST overwrites the sound timer; every other instruction commutes with changing it. -/
theorem noInstructionReadsTheSoundTimer : Obligations.NoInstructionReadsTheSoundTimer := by
  intro i s b
  refine ⟨outcome i s, exec_eq i s, fun hi => ?_, ?_⟩
  · exact (exec_eq i (s.setST b)).trans (congrArg _ (outcome_setST hi s b))
  · rintro ⟨x, rfl⟩
    rfl

/-! ### Reset (10_state.md R36) -/

/-- The reset state with a glyph table and a count of draws of the model's own. -/
def resetWith (g : Glyph) (n : Nat) : State := { State.reset with glyph := g, draws := n }

theorem readMem_resetWith (g : Glyph) (n a : Nat) : (resetWith g n).readMem a = Memory.unlisted g a := rfl

theorem eq_resetWith {t : State} (ht : t = State.reset ∨ (∃ g, t = newVM g) ∨ ∃ s : State, t = s.resetOp) :
    ∃ g n, t = resetWith g n := by
  obtain rfl | ⟨g, rfl⟩ | ⟨s, rfl⟩ := ht
  · exact ⟨defaultGlyph, 0, rfl⟩
  · exact ⟨g, 0, rfl⟩
  · exact ⟨s.glyph, s.draws, rfl⟩

theorem blankScreen_pixel (j : Fin 32) (k : Fin 64) : blankScreen[j][k] = false := by
  simp [blankScreen]

/-- Settles O44: all three kinds of reset state are `resetWith`. -/
theorem resetLeavesTheListedValues : Obligations.ResetLeavesTheListedValues := by
  refine ⟨fun t ht => ?_, fun g => rfl, fun s => ⟨rfl, rfl, rfl⟩⟩
  obtain ⟨g, n, rfl⟩ := eq_resetWith ht
  refine ⟨fun r => Vector.getElem_replicate r.isLt, rfl, rfl, rfl, fun k => Vector.getElem_replicate k.isLt,
    fun a => ?_, fun a ha _ => ?_, fun k => Vector.getElem_replicate k.isLt, blankScreen_pixel, rfl, rfl, rfl⟩
  · exact (readMem_resetWith g n a).trans (dif_pos a.isLt)
  · exact (readMem_resetWith g n a).trans (dif_neg (by omega))

theorem resetWith_memoryCanonical (g : Glyph) (n : Nat) : MemoryCanonical (resetWith g n) := Memory.nil_wf

theorem resetWith_counterBounded (g : Glyph) (n : Nat) : CounterBounded (resetWith g n) := by
  refine ⟨show Config.resetPc.toNat ≤ 0x10FE by decide, fun k => ?_⟩
  have hslot : (resetWith g n).stack[k] = 0 := Vector.getElem_replicate k.isLt
  rw [hslot]
  decide

/-- Settles O50: nothing is stored, no slot is used, and `pc` is 0x200. -/
theorem invariantsHoldAtReset : Obligations.InvariantsHoldAtReset :=
  ⟨⟨resetWith_memoryCanonical defaultGlyph 0, resetWith_counterBounded defaultGlyph 0⟩,
    fun g => ⟨resetWith_memoryCanonical g 0, resetWith_counterBounded g 0⟩⟩

end Sys2Proof.Proofs

/-! PROOFS. The family 20_memory.md: the canonical form of the memory is kept by every step and determines the data, and a
store is seen by the next fetch (R55, R63). -/

namespace Sys2Proof.Proofs

open Sys2Proof.Machine Sys2Proof.Safety

/-! ### Every step keeps the canonical form

Only LD B and LD [I] store, and each checks its whole range before its first access (20_memory.md R57). -/

/-- LD B completes only where its three bytes exist (43_index_memory.md R143). -/
theorem ownFault_ldBVx_none {x : Reg} {s : State} : ownFault (.ldBVx x) s = none ↔ s.effAddr 2 ≤ 4095 := by
  simp [ownFault, State.effAddr]

/-- LD [I] completes only where a byte for each of V0 to Vx exists (43_index_memory.md R144). -/
theorem ownFault_ldMemVx_none {x : Reg} {s : State} : ownFault (.ldMemVx x) s = none ↔ s.effAddr x.val ≤ 4095 := by
  simp [ownFault, State.effAddr]

/-- The range of a store from `I` on whose last address was checked lies in memory. -/
theorem storeRange_le {s : State} {last : Nat} (h : s.effAddr last ≤ 4095) :
    s.effAddr 0 + (last + 1) ≤ Config.memSize := by
  simp only [State.effAddr, Config.memSize] at h ⊢
  omega

theorem writes_keeps_memoryCanonical {i : Instr} {s : State} (hs : MemoryCanonical s) (hf : ownFault i s = none) :
    MemoryCanonical (writes i s) := by
  cases i
  case ldBVx x => exact storeBytes_wf s hs (storeRange_le (ownFault_ldBVx_none.1 hf))
  case ldMemVx x =>
    refine storeBytes_wf s hs ?_
    rw [regsUpTo_length]
    exact storeRange_le (ownFault_ldMemVx_none.1 hf)
  all_goals exact hs

theorem exec_keeps_memoryCanonical {i : Instr} {s t : State} (hs : MemoryCanonical s) (h : exec i s = .next t) :
    MemoryCanonical t := by
  obtain ⟨f, -, rfl⟩ | ⟨hf, rfl⟩ := exec_cases h
  · exact hs
  · exact writes_keeps_memoryCanonical hs hf

/-- Settles O51: a step that executes no instruction leaves the memory alone; an instruction stores in range only. -/
theorem stepKeepsMemoryCanonical : Obligations.StepKeepsMemoryCanonical := by
  intro s t hs h
  obtain ⟨-, rfl⟩ | ⟨-, -, rfl⟩ | ⟨-, -, -, rfl⟩ | ⟨-, -, i, -, hi⟩ := step_cases h
  · exact hs
  · exact hs
  · exact hs
  · exact exec_keeps_memoryCanonical hs hi

/-! ### A store is seen by the next fetch (20_memory.md R63) -/

/-- A running machine executes the instruction it finds at `pc` (30_encoding.md R84). -/
theorem step_eq_exec {s : State} {i : Instr} (hf : s.fault = none) (hpc : s.pc.toNat ≤ 4094)
    (hd : decodeWord (s.wordAt s.pc.toNat) = some i) : step s = exec i s := by
  rw [step, runStep_running hf, fetchInstr_ok hpc hd]

/-- LD [I] completes when its last address exists. -/
theorem execLdMemVx_ok {x : Reg} {s : State} (h : s.effAddr x.val ≤ 4095) :
    exec (.ldMemVx x) s = .next (completed (.ldMemVx x) s) := by
  rw [exec_eq, outcome, ownFault_ldMemVx_none.2 h, Option.elim_none]

/-- After LD [I] the byte at `I + k` is `V[k]` (43_index_memory.md R144). -/
theorem readMem_completed_ldMemVx {x : Reg} {s : State} (hs : MemoryCanonical s) (h : s.effAddr x.val ≤ 4095)
    (k : Reg) (hk : k.val ≤ x.val) : (completed (.ldMemVx x) s).readMem (s.effAddr k.val) = s.V[k] := by
  have hlen := regsUpTo_length s x
  have hrange : s.effAddr 0 + (s.regsUpTo x).length ≤ Config.memSize := by
    rw [hlen]
    exact storeRange_le h
  calc (completed (.ldMemVx x) s).readMem (s.effAddr k.val)
      = (s.storeBytes (s.effAddr 0) (s.regsUpTo x)).readMem (s.effAddr 0 + k.val) := rfl
    _ = (s.regsUpTo x)[k.val] := readMem_storeBytes_inside s hs hrange (by omega)
    _ = s.V[k] := regsUpTo_getElem s x k.val (by omega)

/-- Settles O32: the next step fetches V0 and V1, the first two bytes stored. -/
theorem storeIsSeenByTheNextFetch : Obligations.StoreIsSeenByTheNextFetch := by
  intro x s i hs hf hx hpc hI hrange hd
  refine ⟨completed (.ldMemVx x) s, execLdMemVx_ok hrange, step_eq_exec hf ?_ ?_⟩
  · show s.npc.toNat ≤ 4094
    rw [npc_nat (by omega)]
    omega
  · have hnext : (completed (.ldMemVx x) s).pc = s.I := hI.symm
    have hhi := readMem_completed_ldMemVx hs hrange 0 (Nat.zero_le _)
    have hlo := readMem_completed_ldMemVx hs hrange 1 hx
    rw [hnext]
    exact (congrArg decodeWord (congrArg₂ wordOfBytes hhi hlo)).trans hd

/-! ### The canonical form is unique

The first cell of a canonical memory is the lowest address that does not read as its background, so the reads determine the
list cell by cell. -/

theorem wfFrom_cons {g : Glyph} {lo a : Nat} {v : Byte} {m : Memory} :
    Memory.wfFrom g lo ((a, v) :: m) = true ↔
      lo ≤ a ∧ a < Config.memSize ∧ v ≠ Memory.unlisted g a ∧ Memory.wfFrom g (a + 1) m = true := by
  simp only [Memory.wfFrom, Bool.and_eq_true, decide_eq_true_eq, and_assoc]

/-- The first cell of a canonical memory does not read as its background. -/
theorem read_first_ne_unlisted {g : Glyph} {lo a : Nat} {v : Byte} {m : Memory}
    (wf : Memory.wfFrom g lo ((a, v) :: m) = true) :
    Memory.read g ((a, v) :: m) a ≠ Memory.unlisted g a := by
  obtain ⟨-, -, hv, -⟩ := wfFrom_cons.1 wf
  rwa [Memory.read_cons_cell, if_pos rfl]

/-- No address below the first cell of a canonical memory reads as anything but its background. -/
theorem first_le_of_read_ne {g : Glyph} {lo a b : Nat} {v : Byte} {m : Memory}
    (wf : Memory.wfFrom g lo ((a, v) :: m) = true)
    (hb : Memory.read g ((a, v) :: m) b ≠ Memory.unlisted g b) : a ≤ b := by
  obtain ⟨-, ha, hv, wf⟩ := wfFrom_cons.1 wf
  by_contra hlt
  exact hb (Memory.read_below (wfFrom_cons.2 ⟨le_rfl, ha, hv, wf⟩) (Nat.lt_of_not_le hlt))

/-- The memory without its first cell reads as it did, but for that cell's address, which is unlisted now. -/
theorem read_tail {g : Glyph} {lo a : Nat} {v : Byte} {m : Memory} (wf : Memory.wfFrom g lo ((a, v) :: m) = true)
    (b : Nat) :
    Memory.read g m b = if b = a then Memory.unlisted g b else Memory.read g ((a, v) :: m) b := by
  obtain ⟨-, -, -, wf⟩ := wfFrom_cons.1 wf
  split
  · exact Memory.read_below wf (by omega)
  · rw [Memory.read_cons_cell, if_neg ‹_›]

/-- A canonical memory that reads as the reset memory everywhere lists nothing. -/
theorem eq_nil_of_read_unlisted {g : Glyph} {lo : Nat} {m : Memory} (wf : Memory.wfFrom g lo m = true)
    (h : ∀ a, a < 4096 → Memory.read g m a = Memory.unlisted g a) : m = [] := by
  cases m with
  | nil => rfl
  | cons c m =>
    obtain ⟨a, v⟩ := c
    obtain ⟨-, ha, -, -⟩ := wfFrom_cons.1 wf
    exact absurd (h a ha) (read_first_ne_unlisted wf)

theorem eq_of_read_eq {g : Glyph} {lo lo' : Nat} {m m' : Memory} (wf : Memory.wfFrom g lo m = true)
    (wf' : Memory.wfFrom g lo' m' = true) (h : ∀ a, a < 4096 → Memory.read g m a = Memory.read g m' a) : m = m' := by
  induction m generalizing lo lo' m' with
  | nil => exact (eq_nil_of_read_unlisted wf' fun a ha => (h a ha).symm).symm
  | cons c m ih =>
    cases m' with
    | nil => exact eq_nil_of_read_unlisted wf h
    | cons c' m' =>
      obtain ⟨a, v⟩ := c
      obtain ⟨b, w⟩ := c'
      obtain ⟨-, ha, -, wfm⟩ := wfFrom_cons.1 wf
      obtain ⟨-, hb, -, wfm'⟩ := wfFrom_cons.1 wf'
      have hab : a ≤ b := first_le_of_read_ne wf (by rw [h b hb]; exact read_first_ne_unlisted wf')
      have hba : b ≤ a := first_le_of_read_ne wf' (by rw [← h a ha]; exact read_first_ne_unlisted wf)
      obtain rfl : a = b := Nat.le_antisymm hab hba
      have hvw : v = w := by simpa [Memory.read_cons_cell] using h a ha
      have htail : m = m' := ih wfm wfm' fun d hd => by rw [read_tail wf, read_tail wf', h d hd]
      rw [hvw, htail]

/-- Settles O33: both memories are canonical from address 0 on. -/
theorem equalMemoriesAreEqualData : Obligations.EqualMemoriesAreEqualData :=
  fun _ _ _ wf wf' h => eq_of_read_eq wf wf' h

end Sys2Proof.Proofs

/-! PROOFS. The family 30_encoding.md: the decoder inverts the encoder, a word decodes exactly when it fits its row of the
opcode map, and a step executes what it decodes (R82 to R87, R92). -/

namespace Sys2Proof.Proofs

open Sys2Proof.Machine Sys2Proof.Safety

/-! ### Masks that keep a field

A mask whose bits are all set over a field keeps it: this is what the masks of R85 and the ignored nibble of R92 need. -/

theorem and_allOnes_word (w : Word) : w &&& 0xFFFF = w := BitVec.and_allOnes

theorem extractLsb'_and_mask {start len : Nat} {m : Word} (hm : m.extractLsb' start len = BitVec.allOnes len) (w : Word) :
    (w &&& m).extractLsb' start len = w.extractLsb' start len := by
  rw [BitVec.extractLsb'_and, hm, BitVec.and_allOnes]

theorem nibble1_eq_of_and {w m v : Word} (hm : m.extractLsb' 12 4 = BitVec.allOnes 4) (h : w &&& m = v) :
    nibble1 w = nibble1 v := by
  subst h
  exact congrArg BitVec.toNat (extractLsb'_and_mask hm w).symm

theorem nibble4_eq_of_and {w m v : Word} (hm : m.extractLsb' 0 4 = BitVec.allOnes 4) (h : w &&& m = v) :
    nibble4 w = nibble4 v := by
  subst h
  exact congrArg BitVec.toNat (extractLsb'_and_mask hm w).symm

theorem fieldX_eq_of_and {w m v : Word} (hm : m.extractLsb' 8 4 = BitVec.allOnes 4) (h : w &&& m = v) :
    fieldX w = fieldX v := by
  subst h
  exact congrArg BitVec.toFin (extractLsb'_and_mask hm w).symm

theorem fieldNN_eq_of_and {w m v : Word} (hm : m.extractLsb' 0 8 = BitVec.allOnes 8) (h : w &&& m = v) :
    fieldNN w = fieldNN v := by
  subst h
  exact (extractLsb'_and_mask hm w).symm

/-- The mask 0xFF0F clears the Y nibble. -/
theorem fieldY_and_FF0F (w : Word) : fieldY (w &&& 0xFF0F) = 0 := by
  have hm : (0xFF0F : Word).extractLsb' 4 4 = 0#4 := rfl
  rw [fieldY, BitVec.extractLsb'_and, hm, BitVec.and_zero]
  rfl

/-! ### A word is put together from its fields, format by format (R83) -/

theorem encodeNNN_fields {w : Word} {op : BitVec 4} (h1 : nibble1 w = op.toNat) : encodeNNN op (fieldNNN w) = w := by
  rw [nibble1_nat] at h1
  rw [← BitVec.toNat_inj, encodeNNN_nat, fieldNNN_nat]
  omega

theorem encodeXNN_fields {w : Word} {op : BitVec 4} (h1 : nibble1 w = op.toNat) :
    encodeXNN op (fieldX w) (fieldNN w) = w := by
  rw [nibble1_nat] at h1
  rw [← BitVec.toNat_inj, encodeXNN_nat, fieldX_nat, fieldNN_nat]
  omega

theorem encodeXFF_fields {w : Word} {op : BitVec 4} {code : Byte} (h1 : nibble1 w = op.toNat)
    (hc : (fieldNN w).toNat = code.toNat) : encodeXFF op (fieldX w) code = w := by
  obtain rfl := BitVec.toNat_inj.1 hc
  exact encodeXNN_fields h1

theorem encodeXYN_fields {w : Word} {op n : BitVec 4} (h1 : nibble1 w = op.toNat) (h4 : nibble4 w = n.toNat) :
    encodeXYN op (fieldX w) (fieldY w) n = w := by
  rw [nibble1_nat] at h1
  rw [nibble4_nat] at h4
  rw [← BitVec.toNat_inj, encodeXYN_nat, fieldX_nat, fieldY_nat]
  omega

theorem encodeXYN_fields_clearY {w : Word} {op n : BitVec 4} (h1 : nibble1 w = op.toNat) (h4 : nibble4 w = n.toNat) :
    encodeXYN op (fieldX w) 0 n = w &&& 0xFF0F := by
  have hkept : w &&& 0xFF0F = w &&& 0xFF0F := rfl
  rw [nibble1_eq_of_and rfl hkept] at h1
  rw [nibble4_eq_of_and rfl hkept] at h4
  rw [fieldX_eq_of_and rfl hkept, ← fieldY_and_FF0F w]
  exact encodeXYN_fields h1 h4

/-! ### The decoder and the encoder -/

/-- The bits of its word that fix an instruction and its operands: all but the Y nibble of the shifts (R92). -/
def significantBits : Instr → Word
  | .shr _ | .shl _ => 0xFF0F
  | _ => 0xFFFF

theorem significantBits_other {i : Instr} (h : ¬ ∃ x, i = .shr x ∨ i = .shl x) : significantBits i = 0xFFFF := by
  cases i
  case shr x => exact absurd ⟨x, .inl rfl⟩ h
  case shl x => exact absurd ⟨x, .inr rfl⟩ h
  all_goals rfl

/-- The decoder inverts the encoder on words: the fields of each format are read back (the `simp` lemmas of Laws/Decode). -/
theorem decodeWord_encode (i : Instr) : decodeWord (encode i) = some i := by
  cases i
  case nop | cls | ret => rfl
  case ldReg x y | orReg x y | andReg x y | xorReg x y | addReg x y | subReg x y | shr x | subnReg x y | shl x =>
    simp [encode, decodeWord, decode8]
  case skp x | sknp x => simp [encode, encodeXFF, decodeWord, decodeE]
  case ldVxDT x | ldVxK x | ldDTVx x | ldSTVx x | addIVx x | ldFVx x | ldBVx x | ldMemVx x | ldVxMem x =>
    simp [encode, encodeXFF, decodeWord, decodeF]
  all_goals simp [encode, decodeWord]

theorem encode_of_decode0 {w : Word} {i : Instr} (h : decode0 w = some i) : encode i = w &&& significantBits i := by
  unfold decode0 at h
  split_ifs at h with h0 h1 h2 <;> cases h
  · rw [h0]; rfl
  · rw [h1]; rfl
  · rw [h2]; rfl

theorem encode_of_decode8 {w : Word} {i : Instr} (h1 : nibble1 w = 0x8) (h : decode8 w = some i) :
    encode i = w &&& significantBits i := by
  unfold decode8 at h
  split at h <;> cases h
  -- SHR and SHL
  case h_7 h4 | h_9 h4 => exact encodeXYN_fields_clearY h1 h4
  all_goals exact (encodeXYN_fields h1 ‹_›).trans (and_allOnes_word w).symm

theorem encode_of_decodeE {w : Word} {i : Instr} (h1 : nibble1 w = 0xE) (h : decodeE w = some i) :
    encode i = w &&& significantBits i := by
  unfold decodeE at h
  split at h <;> cases h
  all_goals exact (encodeXFF_fields h1 ‹_›).trans (and_allOnes_word w).symm

theorem encode_of_decodeF {w : Word} {i : Instr} (h1 : nibble1 w = 0xF) (h : decodeF w = some i) :
    encode i = w &&& significantBits i := by
  unfold decodeF at h
  split at h <;> cases h
  all_goals exact (encodeXFF_fields h1 ‹_›).trans (and_allOnes_word w).symm

/-- The encoding of what a word decodes to is the word, but for the bits its instruction ignores. The cases are the arms of
`decodeWord`: arm `h_k` is the family of first nibble `k - 1`, and the last is that of no nibble. -/
theorem encode_of_decode {w : Word} {i : Instr} (h : decodeWord w = some i) : encode i = w &&& significantBits i := by
  unfold decodeWord at h
  split at h
  case h_1 => exact encode_of_decode0 h
  case h_9 h1 => exact encode_of_decode8 h1 h
  case h_15 h1 => exact encode_of_decodeE h1 h
  case h_16 h1 => exact encode_of_decodeF h1 h
  case h_17 => cases h
  case h_6 h1 | h_10 h1 =>
    split_ifs at h with h4
    cases h
    exact (encodeXYN_fields h1 h4).trans (and_allOnes_word w).symm
  case h_14 h1 =>
    cases h
    exact (encodeXYN_fields h1 rfl).trans (and_allOnes_word w).symm
  case h_2 h1 | h_3 h1 | h_11 h1 | h_12 h1 =>
    cases h
    exact (encodeNNN_fields h1).trans (and_allOnes_word w).symm
  all_goals
    cases h
    exact (encodeXNN_fields ‹_›).trans (and_allOnes_word w).symm

theorem encode_eq_of_decode {w : Word} {i : Instr} (h : decodeWord w = some i) (hi : significantBits i = 0xFFFF) :
    encode i = w := by
  rw [encode_of_decode h, hi, and_allOnes_word]

theorem fields_of_clearY {w : Word} {x : Reg} {n : BitVec 4} (h : w &&& 0xFF0F = encodeXYN 0x8 x 0 n) :
    nibble1 w = 0x8 ∧ nibble4 w = n.toNat ∧ fieldX w = x :=
  ⟨(nibble1_eq_of_and rfl h).trans (nibble1_encodeXYN ..), (nibble4_eq_of_and rfl h).trans (nibble4_encodeXYN ..),
    (fieldX_eq_of_and rfl h).trans (fieldX_encodeXYN ..)⟩

/-- A word decodes to an instruction exactly when it agrees with its encoding on the significant bits. -/
theorem decodeWord_eq_some_iff {w : Word} {i : Instr} :
    decodeWord w = some i ↔ w &&& significantBits i = encode i := by
  refine ⟨fun h => (encode_of_decode h).symm, fun h => ?_⟩
  by_cases hi : ∃ x, i = .shr x ∨ i = .shl x
  · obtain ⟨x, rfl | rfl⟩ := hi
    all_goals
      obtain ⟨h1, h4, hx⟩ := fields_of_clearY h
      simp [decodeWord, decode8, h1, h4, hx]
  · rw [significantBits_other hi, and_allOnes_word] at h
    rw [h, decodeWord_encode]

theorem decode_word_bytes {w : Word} {i : Instr} (h : decodeWord w = some i) (rest : List Byte) :
    decode (highByte w :: lowByte w :: rest) = .ok (i, rest) := by
  simp only [decode, wordOfBytes_split, h]

/-- Settles O1: the two bytes make up the word again, and the decoder inverts the encoder on words. -/
theorem decodeInvertsEncode : Obligations.DecodeInvertsEncode :=
  fun i rest => decode_word_bytes (decodeWord_encode i) rest

/-! ### The shifts and the Y nibble (R92) -/

/-- A result with its flag commutes with a write to a register that it does not write. -/
theorem setResult_setV_comm {x y : Reg} (hx : y ≠ x) (hvf : y ≠ vf) (s : State) (r b : Byte) (flag : Bool) :
    (s.setV y b).setResult x r flag = (s.setResult x r flag).setV y b := by
  have hx' : y.val ≠ x.val := mt Fin.ext hx
  have hvf' : y.val ≠ vf.val := mt Fin.ext hvf
  simp only [State.setResult, State.setV, Vector.set_comm _ _ hx', Vector.set_comm _ _ hvf']

/-- An instruction that makes a result and a flag of `V[x]` neither reads nor writes another register than X and VF. -/
theorem unary_other_register {x y : Reg} (hx : y ≠ x) (hvf : y ≠ vf) (f : Byte → Byte) (flag : Byte → Bool) (s : State)
    (b : Byte) :
    ∃ t, advance s (s.setResult x (f s.V[x]) (flag s.V[x])) = .next t ∧
      advance (s.setV y b) ((s.setV y b).setResult x (f (s.setV y b).V[x]) (flag (s.setV y b).V[x])) =
        .next (t.setV y b) ∧
      t.V[y] = s.V[y] := by
  refine ⟨_, rfl, ?_, ?_⟩
  · rw [setV_getElem, if_neg hx, setResult_setV_comm hx hvf]
    rfl
  · exact (setResult_getElem ..).trans (by rw [if_neg hvf, if_neg (Ne.symm hx)])

/-- Settles O2: the significant bits of a shift are all but the Y nibble; those of every other instruction are all. -/
theorem onlyTheShiftsIgnoreANibble : Obligations.OnlyTheShiftsIgnoreANibble := by
  refine ⟨fun w i h => ⟨?_, fun hi => encode_eq_of_decode h (significantBits_other hi)⟩, ?_⟩
  · rintro ⟨x, rfl | rfl⟩
    all_goals
      have hw := decodeWord_eq_some_iff.1 h
      exact ⟨hw.symm, fun v hv => decodeWord_eq_some_iff.2 (hv.trans hw)⟩
  · rintro x y b s hx hvf i (rfl | rfl)
    · exact unary_other_register hx hvf (· >>> 1) shiftedOutRight s b
    · exact unary_other_register hx hvf (· <<< 1) shiftedOutLeft s b

/-! ### The opcode map (R85) -/

theorem row_mem_opcodeTable (i : Instr) : i.row ∈ opcodeTable := by
  cases i <;> simp [Instr.row, opcodeTable, opcodeRowsFlow, opcodeRowsAlu, opcodeRowsRest]

/-- The encoding of every instruction fits its row. -/
theorem encode_fits_row (i : Instr) : encode i &&& i.row.mask = i.row.bits := by
  suffices h : Laws.OwnRow.Statement i from beq_iff_eq.1 h
  cases i
  case nop => exact Laws.OwnRow.nop
  case cls => exact Laws.OwnRow.cls
  case ret => exact Laws.OwnRow.ret
  case jp nnn | call nnn | ldI nnn | jpV0 nnn => exact Laws.OwnRow.encodeNNN_fits _ nnn _ rfl
  case seImm x nn | sneImm x nn | ldImm x nn | addImm x nn | rnd x nn => exact Laws.OwnRow.encodeXNN_fits _ x nn _ rfl
  case drw x y n => exact Laws.OwnRow.drw x y n
  case shr x | shl x => exact Laws.OwnRow.encodeXYN_fits _ x 0 _ _ rfl
  case skp x | sknp x => exact Laws.OwnRow.encodeXFF_fits _ x _ _ rfl
  case ldVxDT x | ldVxK x | ldDTVx x | ldSTVx x | addIVx x | ldFVx x | ldBVx x | ldMemVx x | ldVxMem x =>
    exact Laws.OwnRow.encodeXFF_fits _ x _ _ rfl
  all_goals exact Laws.OwnRow.encodeXYN_fits _ _ _ _ _ rfl

/-- No row looks at a bit that its instruction ignores. -/
theorem significantBits_and_row_mask (i : Instr) : significantBits i &&& i.row.mask = i.row.mask := by
  by_cases hi : ∃ x, i = .shr x ∨ i = .shl x
  · obtain ⟨x, rfl | rfl⟩ := hi
    all_goals exact (by decide : (0xFF0F : Word) &&& 0xF00F = 0xF00F)
  · rw [significantBits_other hi]
    exact BitVec.allOnes_and

theorem fits_row_of_decode {w : Word} {i : Instr} (h : decodeWord w = some i) : w &&& i.row.mask = i.row.bits := by
  calc w &&& i.row.mask = (w &&& significantBits i) &&& i.row.mask := by
        rw [BitVec.and_assoc, significantBits_and_row_mask]
    _ = encode i &&& i.row.mask := by rw [encode_of_decode h]
    _ = i.row.bits := encode_fits_row i

theorem rows_disagree : ∀ r ∈ opcodeTable, ∀ q ∈ opcodeTable, r.bits &&& q.mask = q.bits &&& r.mask → r = q := by
  decide

/-- No word fits two rows: on the bits that both masks look at, two rows differ. -/
theorem row_unique {w : Word} {r q : OpRow} (hr : r ∈ opcodeTable) (hq : q ∈ opcodeTable) (hwr : w &&& r.mask = r.bits)
    (hwq : w &&& q.mask = q.bits) : r = q := by
  apply rows_disagree r hr q hq
  rw [← hwr, ← hwq, BitVec.and_assoc, BitVec.and_assoc, BitVec.and_comm r.mask]

/-- The map lists one row for each instruction. -/
theorem opcodeTable_eq : opcodeTable = [Instr.nop, .cls, .ret, .jp 0, .call 0, .seImm 0 0, .sneImm 0 0, .seReg 0 0,
    .ldImm 0 0, .addImm 0 0, .ldReg 0 0, .orReg 0 0, .andReg 0 0, .xorReg 0 0, .addReg 0 0, .subReg 0 0, .shr 0,
    .subnReg 0 0, .shl 0, .sneReg 0 0, .ldI 0, .jpV0 0, .rnd 0 0, .drw 0 0 0, .skp 0, .sknp 0, .ldVxDT 0, .ldVxK 0,
    .ldDTVx 0, .ldSTVx 0, .addIVx 0, .ldFVx 0, .ldBVx 0, .ldMemVx 0, .ldVxMem 0].map Instr.row := rfl

theorem eq_row_of_mem_opcodeTable {r : OpRow} (hr : r ∈ opcodeTable) : ∃ i : Instr, i.row = r := by
  rw [opcodeTable_eq] at hr
  obtain ⟨i, -, hi⟩ := List.mem_map.1 hr
  exact ⟨i, hi⟩

/-- A word that fits a row is in its family, and the family's decoder finds the row's fourth nibble or low byte in it. -/
theorem decodes_of_fits_row {w : Word} {i : Instr} (h : w &&& i.row.mask = i.row.bits) : (decodeWord w).isSome := by
  cases i
  all_goals simp only [Instr.row] at h
  case nop | cls | ret =>
    obtain rfl := (and_allOnes_word w).symm.trans h
    rfl
  case seReg x y | sneReg x y =>
    rw [decodeWord, nibble1_eq_of_and rfl h]
    exact congrArg Option.isSome (if_pos (nibble4_eq_of_and rfl h))
  case ldReg x y | orReg x y | andReg x y | xorReg x y | addReg x y | subReg x y | shr x | subnReg x y | shl x =>
    have hfamily : decodeWord w = decode8 w := by rw [decodeWord, nibble1_eq_of_and rfl h]; rfl
    rw [hfamily, decode8, nibble4_eq_of_and rfl h]
    rfl
  case skp x | sknp x =>
    have hfamily : decodeWord w = decodeE w := by rw [decodeWord, nibble1_eq_of_and rfl h]; rfl
    rw [hfamily, decodeE, fieldNN_eq_of_and rfl h]
    rfl
  case ldVxDT x | ldVxK x | ldDTVx x | ldSTVx x | addIVx x | ldFVx x | ldBVx x | ldMemVx x | ldVxMem x =>
    have hfamily : decodeWord w = decodeF w := by rw [decodeWord, nibble1_eq_of_and rfl h]; rfl
    rw [hfamily, decodeF, fieldNN_eq_of_and rfl h]
    rfl
  all_goals
    rw [decodeWord, nibble1_eq_of_and rfl h]
    rfl

/-- Settles O3: a word that fits a row decodes to some instruction; the word fits that one's row too, and only one row. -/
theorem decodeFollowsTheOpcodeMap : Obligations.DecodeFollowsTheOpcodeMap := by
  refine ⟨rfl, fun w i h => ⟨row_mem_opcodeTable i, fits_row_of_decode h⟩, fun w r hr hwr => ?_,
    fun w r q hr hq => row_unique hr hq⟩
  obtain ⟨j, rfl⟩ := eq_row_of_mem_opcodeTable hr
  obtain ⟨i, hi⟩ := Option.isSome_iff_exists.1 (decodes_of_fits_row hwr)
  exact ⟨i, hi, row_unique (row_mem_opcodeTable i) hr (fits_row_of_decode hi) hwr⟩

/-! ### Operands (R82) -/

/-- The X nibble is read from the word, the Y nibble ignored or not. -/
theorem fieldX_of_decode {w : Word} {i : Instr} (h : decodeWord w = some i) : fieldX (encode i) = fieldX w := by
  rw [encode_of_decode h]
  by_cases hi : ∃ x, i = .shr x ∨ i = .shl x
  · obtain ⟨x, rfl | rfl⟩ := hi
    all_goals exact (fieldX_eq_of_and (m := 0xFF0F) rfl rfl).symm
  · rw [significantBits_other hi, and_allOnes_word]

theorem operand_of_encodeNNN {w : Word} {op : BitVec 4} {nnn : Addr12} (h : encodeNNN op nnn = w) :
    nnn.toNat = w.toNat % 4096 ∧ (zextAddr nnn).toNat = w.toNat % 4096 := by
  rw [zextAddr_nat, ← h, ← fieldNNN_nat, fieldNNN_encodeNNN]
  exact ⟨rfl, rfl⟩

theorem operands_of_encodeXNN {w : Word} {op : BitVec 4} {x : Reg} {nn : Byte} (h : encodeXNN op x nn = w) :
    x.val = w.toNat / 256 % 16 ∧ nn.toNat = w.toNat % 256 := by
  rw [← h, ← fieldX_nat, ← fieldNN_nat, fieldX_encodeXNN, fieldNN_encodeXNN]
  exact ⟨rfl, rfl⟩

theorem operands_of_encodeXYN {w : Word} {op n : BitVec 4} {x y : Reg} (h : encodeXYN op x y n = w) :
    x.val = w.toNat / 256 % 16 ∧ y.val = w.toNat / 16 % 16 ∧ n.toNat = w.toNat % 16 := by
  rw [← h, ← fieldX_nat, ← fieldY_nat, ← nibble4_nat, fieldX_encodeXYN, fieldY_encodeXYN, nibble4_encodeXYN]
  exact ⟨rfl, rfl, rfl⟩

/-- Settles O4: the operands are those of the encoding, which is the word but for the Y nibble of a shift. -/
theorem operandFieldsAreBitsOfTheWord : Obligations.OperandFieldsAreBitsOfTheWord := by
  refine ⟨?_, ?_, ?_, ?_, ?_⟩
  · rintro w nnn (h | h | h | h)
    all_goals exact operand_of_encodeNNN (encode_eq_of_decode h rfl)
  · rintro w x nn (h | h | h | h | h)
    all_goals exact operands_of_encodeXNN (encode_eq_of_decode h rfl)
  · rintro w x y (h | h | h | h | h | h | h | h | h)
    all_goals
      obtain ⟨hx, hy, -⟩ := operands_of_encodeXYN (encode_eq_of_decode h rfl)
      exact ⟨hx, hy⟩
  · intro w x y n h
    exact operands_of_encodeXYN (encode_eq_of_decode h rfl)
  · rintro w x (h | h | h | h | h | h | h | h | h | h | h | h | h)
    all_goals
      rw [← fieldX_nat, ← fieldX_of_decode h]
      simp [encode, encodeXFF]

/-! ### Illegal words (R87) -/

theorem decode0_eq_none {w : Word} : decode0 w = none ↔ w.toNat ≠ 0x000 ∧ w.toNat ≠ 0x0E0 ∧ w.toNat ≠ 0x0EE := by
  have hiff (v : Word) : w = v ↔ w.toNat = v.toNat := BitVec.toNat_inj.symm
  simp only [decode0, hiff]
  split_ifs with h0 h1 h2 <;> simp_all

theorem decode8_eq_none {w : Word} : decode8 w = none ↔
    w.toNat % 16 = 8 ∨ w.toNat % 16 = 9 ∨ w.toNat % 16 = 0xA ∨ w.toNat % 16 = 0xB ∨ w.toNat % 16 = 0xC ∨
      w.toNat % 16 = 0xD ∨ w.toNat % 16 = 0xF := by
  rw [← nibble4_nat]
  have hlt : nibble4 w < 16 := BitVec.isLt _
  unfold decode8
  generalize nibble4 w = n at hlt ⊢
  interval_cases n <;> simp

theorem decodeE_eq_none {w : Word} : decodeE w = none ↔ w.toNat % 256 ≠ 0x9E ∧ w.toNat % 256 ≠ 0xA1 := by
  rw [← fieldNN_nat]
  unfold decodeE
  split <;> simp_all

theorem decodeF_eq_none {w : Word} : decodeF w = none ↔
    w.toNat % 256 ≠ 0x07 ∧ w.toNat % 256 ≠ 0x0A ∧ w.toNat % 256 ≠ 0x15 ∧ w.toNat % 256 ≠ 0x18 ∧
      w.toNat % 256 ≠ 0x1E ∧ w.toNat % 256 ≠ 0x29 ∧ w.toNat % 256 ≠ 0x33 ∧ w.toNat % 256 ≠ 0x55 ∧
      w.toNat % 256 ≠ 0x65 := by
  rw [← fieldNN_nat]
  unfold decodeF
  split <;> simp_all

/-- Settles O5, family by family: six of them hold illegal words. -/
theorem illegalWordsAreExactlyTheListedOnes : Obligations.IllegalWordsAreExactlyTheListedOnes := by
  intro w
  have hlt : nibble1 w < 16 := BitVec.isLt _
  rw [← nibble1_nat, ← decode0_eq_none, ← decode8_eq_none, ← decodeE_eq_none, ← decodeF_eq_none, ← nibble4_nat]
  unfold decodeWord
  generalize nibble1 w = n at hlt ⊢
  interval_cases n <;> simp

/-! ### A step (R84, R176) -/

theorem runStep_fetch_fault {execute : Instr → Result} {s : State} (hf : s.fault = none) (hpc : 4094 < s.pc.toNat) :
    runStep execute s = .next (s.latch (.addressOutOfRange .fetch s.pc.toNat)) := by
  rw [runStep_running hf, fetchInstr_fetch_fault hpc]
  rfl

theorem runStep_illegal {execute : Instr → Result} {s : State} (hf : s.fault = none) (hpc : s.pc.toNat ≤ 4094)
    (hd : decodeWord (s.wordAt s.pc.toNat) = none) :
    runStep execute s = .next (s.latch (.illegalInstruction (s.wordAt s.pc.toNat))) := by
  rw [runStep_running hf, fetchInstr_illegal hpc hd]
  rfl

theorem runStep_legal {execute : Instr → Result} {s : State} {i : Instr} (hf : s.fault = none)
    (hpc : s.pc.toNat ≤ 4094) (hd : decodeWord (s.wordAt s.pc.toNat) = some i) : runStep execute s = execute i := by
  rw [runStep_running hf, fetchInstr_ok hpc hd]

theorem wordAt_eq {s : State} {a : Nat} {w : Word}
    (hw : w.toNat = 256 * (s.readMem a).toNat + (s.readMem (a + 1)).toNat) : s.wordAt a = w := by
  rw [← BitVec.toNat_inj, State.wordAt, wordOfBytes_nat, hw]

/-- Settles O7: both steps are `runStep`, check by check. -/
theorem stepFetchesDecodesExecutes : Obligations.StepFetchesDecodesExecutes := by
  refine fun s => ⟨fun hf => ⟨step_faulted hf, fun rand => stepWith_faulted rand hf⟩,
    fun hf hpc => ⟨runStep_fetch_fault hf hpc, fun rand => runStep_fetch_fault hf hpc⟩, fun hf hpc w hw => ?_⟩
  obtain rfl := wordAt_eq hw
  exact ⟨fun hd => ⟨runStep_illegal hf hpc hd, fun rand => runStep_illegal hf hpc hd⟩,
    fun i hd => ⟨runStep_legal hf hpc hd, fun rand => runStep_legal hf hpc hd⟩⟩

end Sys2Proof.Proofs

/-! PROOFS. The family 40_flow.md: NOP, the two jumps, CALL and RET, and calls nested as deep as the stack allows
(R100 to R104, S12). -/

namespace Sys2Proof.Proofs

open Sys2Proof.Machine Sys2Proof.Safety

/-! ### CALL and RET, by the room on the stack -/

theorem execCall_room (nnn : Addr12) {s : State} (h : s.sp.val < 16) :
    exec (.call nnn) s = .next ((s.push s.npc h).setPc (zextAddr nnn)) :=
  dif_neg (Nat.ne_of_lt h)

theorem execCall_full (nnn : Addr12) {s : State} (h : s.sp.val = 16) :
    exec (.call nnn) s = .next (s.latch (.addressOutOfRange .stackOverflow 16)) :=
  dif_pos h

theorem execRet_nonempty {s : State} (h : s.sp.val ≠ 0) : exec .ret s = .next (s.pop.setPc (s.top h)) :=
  dif_neg h

theorem execRet_empty {s : State} (h : s.sp.val = 0) :
    exec .ret s = .next (s.latch (.addressOutOfRange .stackUnderflow 0)) :=
  dif_pos h

/-- RET with `k + 1` addresses on the stack goes to the one in slot `k`. -/
theorem execRet_of_sp_eq {s : State} {k : Fin 16} (h : s.sp.val = k.val + 1) :
    exec .ret s = .next { s with sp := k.castSucc, pc := s.stack[k] } := by
  have hsp : s.pop.sp = k.castSucc := Fin.ext (by simp [h])
  have htop : s.top (by omega) = s.stack[k] := by simp [State.top, h]
  rw [execRet_nonempty (by omega), htop, ← hsp]
  rfl

/-- A push writes the first free slot and no other. -/
theorem push_stack_getElem (s : State) (w : Word) (h : s.sp.val < 16) (k : Fin 16) :
    (s.push w h).stack[k] = if k.val = s.sp.val then w else s.stack[k] := by
  simp only [State.push_stack, Fin.getElem_fin, Vector.getElem_set, eq_comm]

/-! ### Instructions in sequence -/

theorem runInstrs_cons {i : Instr} {s t : State} (h : exec i s = .next t) (is : List Instr) :
    runInstrs (i :: is) s = runInstrs is t := by
  rw [runInstrs, h]

theorem runInstrs_append {is : List Instr} {s t : State} (h : runInstrs is s = .next t) (js : List Instr) :
    runInstrs (is ++ js) s = runInstrs js t := by
  induction is generalizing s with
  | nil => cases h; rfl
  | cons i is ih =>
    rw [runInstrs_cons (exec_eq i s)] at h
    exact (runInstrs_cons (exec_eq i s) (is ++ js)).trans (ih h)

/-- One call after another and then as many returns (95_test_vectors.md S12). -/
def nestedCalls (targets : List Addr12) : List Instr :=
  targets.map Instr.call ++ List.replicate targets.length Instr.ret

/-- The first call and the last return enclose the others. -/
theorem nestedCalls_cons (nnn : Addr12) (targets : List Addr12) :
    nestedCalls (nnn :: targets) = .call nnn :: (nestedCalls targets ++ [.ret]) := by
  simp [nestedCalls, List.replicate_succ']

/-- A call, instructions that keep the slot it has pushed, and a return: control comes back after the call. -/
theorem runInstrs_call_ret {nnn : Addr12} {is : List Instr} {s : State} (h : s.sp.val < 16) {stack : Vector Word 16}
    {pc : Word}
    (hrun : runInstrs is ((s.push s.npc h).setPc (zextAddr nnn)) =
      .next { s.push s.npc h with stack := stack, pc := pc })
    (hslot : stack[s.sp.val] = s.npc) :
    runInstrs (.call nnn :: (is ++ [.ret])) s = .next { s with stack := stack, pc := s.npc } := by
  rw [runInstrs_cons (execCall_room nnn h), runInstrs_append hrun,
    runInstrs_cons (execRet_of_sp_eq (k := ⟨s.sp.val, h⟩) rfl), ← hslot]
  rfl

/-- Nested calls that fit the stack keep every slot in use at the start: the enclosed calls keep one slot more, the one
that the first call has pushed and the last return pops. -/
theorem runInstrs_nestedCalls (targets : List Addr12) (s : State) (hroom : s.sp.val + targets.length ≤ 16) :
    ∃ stack : Vector Word 16,
      runInstrs (nestedCalls targets) s =
        .next { s with stack := stack, pc := if targets = [] then s.pc else s.npc } ∧
      ∀ k : Fin 16, k.val < s.sp.val → stack[k] = s.stack[k] := by
  induction targets generalizing s with
  | nil => exact ⟨s.stack, rfl, fun _ _ => rfl⟩
  | cons nnn targets ih =>
    rw [List.length_cons] at hroom
    have hsp : s.sp.val < 16 := by omega
    have hinner : s.sp.val + 1 + targets.length ≤ 16 := by omega
    obtain ⟨stack, hrun, hkept⟩ := ih ((s.push s.npc hsp).setPc (zextAddr nnn)) hinner
    have hslot : stack[s.sp.val] = s.npc :=
      (hkept ⟨s.sp.val, hsp⟩ (Nat.lt_succ_self _)).trans (Vector.getElem_set_self hsp)
    refine ⟨stack, ?_, fun k hk => ?_⟩
    · rw [nestedCalls_cons, if_neg (List.cons_ne_nil nnn targets)]
      exact runInstrs_call_ret hsp hrun hslot
    · exact (hkept k (Nat.lt_succ_of_lt hk)).trans (Vector.getElem_set_ne hsp k.isLt (Nat.ne_of_gt hk))

/-- Settles O17: the run leaves a new stack and `pc` after the first call. -/
theorem nestedCallsReturnInOrder : Obligations.NestedCallsReturnInOrder := by
  intro targets s hroom
  obtain ⟨stack, hrun, hkept⟩ := runInstrs_nestedCalls targets s hroom
  exact ⟨_, hrun, rfl, hkept⟩

/-! ### The instructions one by one (R100 to R104) -/

/-- A word decodes to an instruction that ignores no bit exactly when it is its encoding. -/
theorem decodeWord_eq_some_iff_eq {w : Word} {i : Instr} (hi : significantBits i = 0xFFFF) :
    decodeWord w = some i ↔ w = encode i := by
  rw [decodeWord_eq_some_iff, hi, and_allOnes_word]

/-- A running machine whose `pc` is past the last word faults at its next fetch (60_exceptions.md R172). -/
theorem step_past_end {s : State} {a : Nat} (hf : s.fault = none) (hpc : s.pc.toNat = a) (ha : 0x0FFE < a) :
    step s = .next (s.latch (.addressOutOfRange .fetch a)) := by
  subst hpc
  exact runStep_fetch_fault hf ha

theorem zextAddr_eq (nnn : Addr12) : zextAddr nnn = BitVec.ofNat 16 nnn.toNat := (BitVec.ofNat_toNat 16 nnn).symm

theorem execJp_eq (nnn : Addr12) (s : State) : exec (.jp nnn) s = .next (s.setPc (zextAddr nnn)) := rfl

/-- Settles O12: the other words below 0x1000 are illegal by R87. -/
theorem nopOnlyAdvances : Obligations.NopOnlyAdvances := by
  refine ⟨fun _ => rfl, fun _ => decodeWord_eq_some_iff_eq rfl, fun w hw h0 hcls hret => ?_⟩
  have hne {v : Word} (h : w ≠ v) : w.toNat ≠ v.toNat := mt BitVec.eq_of_toNat_eq h
  exact (illegalWordsAreExactlyTheListedOnes w).2 (.inl ⟨Nat.div_eq_of_lt hw, hne h0, hne hcls, hne hret⟩)

/-- Settles O13: the target is the immediate itself, which is `pc` for a self-jump and past the last word for 0xFFF. -/
theorem jumpSetsPc : Obligations.JumpSetsPc := by
  refine ⟨fun nnn s => ?_, fun w nnn => ?_, fun nnn s hself => ?_, fun _ hf => ?_⟩
  · rw [execJp_eq, zextAddr_eq]
    rfl
  · rw [decodeWord_eq_some_iff_eq rfl, ← BitVec.toNat_inj, encode, encodeNNN_nat]
    rfl
  · have hpc : zextAddr nnn = s.pc := BitVec.eq_of_toNat_eq ((zextAddr_nat nnn).trans hself)
    rw [execJp_eq, hpc]
    rfl
  · exact ⟨_, execJp_eq 0xFFF _, step_past_end hf (zextAddr_nat 0xFFF) (by decide)⟩

/-- Settles O14: the sum fits 16 bits. -/
theorem jumpV0AddsWithoutWrap : Obligations.JumpV0AddsWithoutWrap :=
  fun nnn _ => ⟨_, rfl, rfl, jpV0_target_nat _ nnn, fun hf => step_past_end hf (jpV0_target_nat _ nnn)⟩

/-- Settles O15, by the room on the stack. -/
theorem callPushesReturnAddress : Obligations.CallPushesReturnAddress := by
  refine fun nnn s => ⟨fun hroom => ⟨_, execCall_room nnn hroom, ?_, rfl, push_stack_getElem s s.npc hroom⟩,
    execCall_full nnn⟩
  rw [zextAddr_eq]
  rfl

/-- Settles O16, by whether the stack is empty. -/
theorem returnPopsReturnAddress : Obligations.ReturnPopsReturnAddress :=
  fun _ => ⟨fun _ => execRet_of_sp_eq, execRet_empty⟩

end Sys2Proof.Proofs

/-! PROOFS. The family 41_skip.md: the skips on a comparison of two bytes (R110 to R114). -/

namespace Sys2Proof.Proofs

open Sys2Proof.Machine

/-! ### Where a skip goes -/

/-- The skipped instruction is one word too, so a skip goes two words on. -/
theorem npc_add_two (s : State) : s.npc + 2 = s.pc + 4 := BitVec.add_assoc s.pc 2 2

theorem skipIf_eq (c : Bool) (s : State) :
    skipIf c s = .next { s with pc := if c then s.pc + 4 else s.pc + 2 } := by
  rw [← npc_add_two]
  rfl

theorem skipIf_beq (a b : Byte) (s : State) :
    skipIf (a == b) s = .next { s with pc := if a = b then s.pc + 4 else s.pc + 2 } := by
  simp only [skipIf_eq, beq_iff_eq]

theorem skipIf_bne (a b : Byte) (s : State) :
    skipIf (a != b) s = .next { s with pc := if a = b then s.pc + 2 else s.pc + 4 } := by
  simp only [skipIf_eq, bne_iff_ne, ite_not]

/-! ### The words of an instruction, by the digits of its format (30_encoding.md R83) -/

theorem decodeWord_eq_some_iff_digitsXNN {w : Word} {i : Instr} (op : BitVec 4) {x : Reg} {nn : Byte}
    (hi : significantBits i = 0xFFFF) (he : encode i = encodeXNN op x nn) :
    decodeWord w = some i ↔ w.toNat = 0x1000 * op.toNat + 0x100 * x.val + nn.toNat := by
  rw [decodeWord_eq_some_iff_eq hi, he, ← BitVec.toNat_inj, encodeXNN_nat, Nat.mul_comm op.toNat, Nat.mul_comm x.val]

theorem decodeWord_eq_some_iff_digitsXYN {w : Word} {i : Instr} (op n : BitVec 4) {x y : Reg}
    (hi : significantBits i = 0xFFFF) (he : encode i = encodeXYN op x y n) :
    decodeWord w = some i ↔ w.toNat = 0x1000 * op.toNat + 0x100 * x.val + 0x10 * y.val + n.toNat := by
  rw [decodeWord_eq_some_iff_eq hi, he, ← BitVec.toNat_inj, encodeXYN_nat, Nat.mul_comm op.toNat, Nat.mul_comm x.val,
    Nat.mul_comm y.val]

/-! ### The four skips (R110 to R113) -/

/-- Settles O18: SE and SNE skip on complementary conditions, and their words have one format. -/
theorem skipOnImmediate : Obligations.SkipOnImmediate :=
  ⟨fun x nn s => ⟨skipIf_beq s.V[x] nn s, skipIf_bne s.V[x] nn s⟩,
    fun _ _ _ => ⟨decodeWord_eq_some_iff_digitsXNN 0x3 rfl rfl, decodeWord_eq_some_iff_digitsXNN 0x4 rfl rfl⟩⟩

/-- Settles O19: as with an immediate; the other words of the two families are illegal by R87. -/
theorem skipOnRegisters : Obligations.SkipOnRegisters := by
  refine ⟨fun x y s => ⟨skipIf_beq s.V[x] s.V[y] s, skipIf_bne s.V[x] s.V[y] s⟩,
    fun _ _ _ => ⟨decodeWord_eq_some_iff_digitsXYN 0x5 0x0 rfl rfl, decodeWord_eq_some_iff_digitsXYN 0x9 0x0 rfl rfl⟩,
    fun w hfamily hn => ?_⟩
  rw [illegalWordsAreExactlyTheListedOnes]
  obtain h5 | h9 := hfamily
  · exact .inr (.inl ⟨h5, hn⟩)
  · exact .inr (.inr (.inr (.inl ⟨h9, hn⟩)))

end Sys2Proof.Proofs

/-! PROOFS. The family 42_alu.md: loads, arithmetic, logic, shifts and the random byte (R120 to R132). -/

namespace Sys2Proof.Proofs

open Sys2Proof.Machine

/-! ### The two ends of an instruction of this family: a result alone, or a result and then its flag (R132) -/

theorem advance_setV {b : Byte} {n : Nat} (h : b.toNat = n) (x : Reg) (s : State) :
    advance s (s.setV x b) = .next { s with V := s.V.set x (BitVec.ofNat 8 n), pc := s.pc + 2 } := by
  rw [← (BitVec.toNat_eq_nat.1 h).2]
  rfl

/-- The flag is written last, also where the destination is VF. -/
theorem advance_setResult {b flag : Byte} {n : Nat} {c : Bool} (hb : b.toNat = n) (hc : flagByte c = flag) (x : Reg)
    (s : State) :
    advance s (s.setResult x b c) =
      .next { s with V := (s.V.set x (BitVec.ofNat 8 n)).set 15 flag, pc := s.pc + 2 } := by
  rw [← (BitVec.toNat_eq_nat.1 hb).2, ← hc]
  rfl

/-! ### The results, as numbers -/

theorem sub_nat (a b : Byte) : (a - b).toNat = (a.toNat + 256 - b.toNat) % 256 := by
  rw [BitVec.toNat_sub]
  congr 1
  omega

theorem shiftLeft_one_nat (a : Byte) : (a <<< 1).toNat = a.toNat * 2 % 256 := by
  rw [BitVec.toNat_shiftLeft, Nat.shiftLeft_eq]

/-- Nine bits hold every sum of two bytes (R126). -/
theorem sum9_nat (a b : Byte) : (sum9 a b).toNat = a.toNat + b.toNat := by
  rw [sum9, BitVec.toNat_add]
  simp only [BitVec.toNat_setWidth]
  omega

theorem truncate_sum9_nat (a b : Byte) : ((sum9 a b).truncate 8).toNat = (a.toNat + b.toNat) % 256 := by
  rw [BitVec.toNat_setWidth, sum9_nat]

/-! ### The flags, as numbers -/

theorem flagByte_decide (p : Prop) [Decidable p] : flagByte (decide p) = if p then 1 else 0 := by
  simp only [flagByte, decide_eq_true_eq]

/-- Bit 8 is the top bit of the nine-bit sum, so it is set from 256 on (R126). -/
theorem flagByte_carryOut (a b : Byte) : flagByte (carryOut a b) = if 255 < a.toNat + b.toNat then 1 else 0 := by
  have hbit : carryOut a b = decide (255 < a.toNat + b.toNat) := by
    rw [← sum9_nat]
    exact (BitVec.msb_eq_getLsbD_last _).symm.trans (BitVec.msb_eq_decide _)
  rw [hbit, flagByte_decide]

theorem flagByte_noBorrow (a b : Byte) : flagByte (noBorrow a b) = if b.toNat ≤ a.toNat then 1 else 0 :=
  flagByte_decide _

theorem flagByte_getLsbD (a : Byte) (k : Nat) : flagByte (a.getLsbD k) = BitVec.ofNat 8 (a.toNat / 2 ^ k % 2) := by
  rw [← Nat.toNat_testBit, ← BitVec.testBit_toNat]
  cases a.toNat.testBit k <;> rfl

theorem flagByte_shiftedOutRight (a : Byte) : flagByte (shiftedOutRight a) = BitVec.ofNat 8 (a.toNat % 2) := by
  rw [shiftedOutRight, flagByte_getLsbD, Nat.pow_zero, Nat.div_one]

theorem flagByte_shiftedOutLeft (a : Byte) : flagByte (shiftedOutLeft a) = BitVec.ofNat 8 (a.toNat / 128) := by
  have hbit : a.toNat / 2 ^ 7 < 2 := by omega
  exact (flagByte_getLsbD a 7).trans (congrArg (BitVec.ofNat 8) (Nat.mod_eq_of_lt hbit))

/-! ### The random byte (R131) -/

theorem rndWith_getElem (rand : Byte) (x : Reg) (nn : Byte) (s : State) :
    (rndWith rand x nn s).V[x] = rand &&& nn :=
  (setV_getElem s x x _).trans (if_pos rfl)

/-! ### The instructions (R120 to R131) -/

/-- Settles O20: a load writes its operand, ADD with an immediate the sum; the words follow from their formats. -/
theorem loadsAndAddImmediate : Obligations.LoadsAndAddImmediate :=
  ⟨fun x _ nn s => ⟨rfl, advance_setV (BitVec.toNat_add s.V[x] nn) x s, rfl⟩,
    fun _ _ _ _ => ⟨decodeWord_eq_some_iff_digitsXNN 0x6 rfl rfl, decodeWord_eq_some_iff_digitsXNN 0x7 rfl rfl,
      decodeWord_eq_some_iff_digitsXYN 0x8 0x0 rfl rfl⟩⟩

/-- Settles O21: VF is written only as the destination. -/
theorem logicLeavesTheFlag : Obligations.LogicLeavesTheFlag :=
  fun x y s => ⟨advance_setV (BitVec.toNat_or s.V[x] s.V[y]) x s,
    advance_setV (BitVec.toNat_and s.V[x] s.V[y]) x s,
    advance_setV (BitVec.toNat_xor s.V[x] s.V[y]) x s⟩

/-- Settles O22: the carry is bit 8 of the nine-bit sum. -/
theorem addSetsCarry : Obligations.AddSetsCarry :=
  fun x y s => advance_setResult (truncate_sum9_nat s.V[x] s.V[y]) (flagByte_carryOut s.V[x] s.V[y]) x s

/-- Settles O23: SUBN is SUB with the operands exchanged. -/
theorem subtractsSetNoBorrow : Obligations.SubtractsSetNoBorrow :=
  fun x y s => ⟨advance_setResult (sub_nat s.V[x] s.V[y]) (flagByte_noBorrow s.V[x] s.V[y]) x s,
    advance_setResult (sub_nat s.V[y] s.V[x]) (flagByte_noBorrow s.V[y] s.V[x]) x s⟩

/-- Settles O24: the bit shifted out is the remainder of the halving or the carry of the doubling. -/
theorem shiftsSetTheBitShiftedOut : Obligations.ShiftsSetTheBitShiftedOut :=
  fun x s => ⟨advance_setResult (BitVec.toNat_ushiftRight s.V[x] 1) (flagByte_shiftedOutRight s.V[x]) x s,
    advance_setResult (shiftLeft_one_nat s.V[x]) (flagByte_shiftedOutLeft s.V[x]) x s⟩

/-- Settles O25: what RND writes is a masked byte, whether the byte is drawn or given. -/
theorem randomByteIsMasked : Obligations.RandomByteIsMasked := by
  intro x nn s
  have hx : (rndWith s.rand x nn s.useRand).V[x] = s.rand &&& nn := rndWith_getElem s.rand x nn s.useRand
  refine ⟨_, exec_eq (.rnd x nn) s, rfl, fun k hk => ?_, fun h0 => ?_, fun rand => ?_⟩
  · have hmasked : (s.rand &&& nn).getLsbD k = true := (congrArg (BitVec.getLsbD · k) hx).symm.trans hk
    rw [BitVec.getLsbD_and, Bool.and_eq_true] at hmasked
    exact hmasked.2
  · subst h0
    exact hx.trans BitVec.and_zero
  · exact advance_setV (BitVec.toNat_and rand nn) x s

end Sys2Proof.Proofs

/-! PROOFS. The family 43_index_memory.md: the three writes of `I`, the two stores from `I` on and the load (R140 to
R146). -/

namespace Sys2Proof.Proofs

open Sys2Proof.Machine Sys2Proof.Safety

/-! ### The index register (R140 to R142) -/

theorem advance_setI {w : Word} {n : Nat} (h : w.toNat = n) (s : State) :
    advance s (s.setI w) = .next { s with I := BitVec.ofNat 16 n, pc := s.pc + 2 } := by
  rw [← (BitVec.toNat_eq_nat.1 h).2]
  rfl

theorem add_zextByte_nat (w : Word) (b : Byte) : (w + zextByte b).toNat = (w.toNat + b.toNat) % 65536 := by
  rw [BitVec.toNat_add, zextByte_nat]

/-- Five times a byte fits 16 bits, so the product does not wrap. -/
theorem glyphAddr_nat (b : Byte) : (glyphAddr b).toNat = 5 * b.toNat := by
  have hfive : (5 : Word).toNat = 5 := rfl
  rw [glyphAddr, BitVec.toNat_mul, zextByte_nat, hfive]
  omega

theorem decodeWord_eq_some_iff_digitsNNN {w : Word} {i : Instr} (op : BitVec 4) {nnn : Addr12}
    (hi : significantBits i = 0xFFFF) (he : encode i = encodeNNN op nnn) :
    decodeWord w = some i ↔ w.toNat = 0x1000 * op.toNat + nnn.toNat := by
  rw [decodeWord_eq_some_iff_eq hi, he, ← BitVec.toNat_inj, encodeNNN_nat, Nat.mul_comm op.toNat]

/-- Settles O27: the immediate is zero-extended. -/
theorem loadIndexSetsI : Obligations.LoadIndexSetsI :=
  ⟨fun nnn s => advance_setI (zextAddr_nat nnn) s, fun _ _ => decodeWord_eq_some_iff_digitsNNN 0xA rfl rfl⟩

/-- Settles O28: the sum wraps at 16 bits, the glyph address does not reach them. -/
theorem indexArithmetic : Obligations.IndexArithmetic :=
  fun x s => ⟨advance_setI (add_zextByte_nat s.I s.V[x]) s, advance_setI (glyphAddr_nat s.V[x]) s⟩

/-! ### The stores (R143, R144) -/

/-- A store from `I` on leaves every byte below its first address and above its last alone. -/
theorem readMem_storeFromI_outside {s : State} {bs : List Byte} {last a : Nat} (hlen : bs.length = last + 1)
    (ha : a < s.effAddr 0 ∨ s.effAddr last < a) : (s.storeBytes (s.effAddr 0) bs).readMem a = s.readMem a := by
  refine readMem_storeBytes_outside s (ha.imp_right fun h => ?_)
  simp only [State.effAddr] at h ⊢
  omega

/-- LD B completes when its last address exists. -/
theorem execLdBVx_ok {x : Reg} {s : State} (h : s.effAddr 2 ≤ 4095) :
    exec (.ldBVx x) s = .next (completed (.ldBVx x) s) :=
  checkRange_ok h

/-- After LD B the byte at `I + k` is digit `k`, as a number that a byte holds (R143). -/
theorem readMem_completed_ldBVx_nat {x : Reg} {s : State} (hs : MemoryCanonical s) (h : s.effAddr 2 ≤ 4095) {k n : Nat}
    (hk : k < 3) (hdigit : (decimalDigits s.V[x])[k] = BitVec.ofNat 8 n) (hn : n < 256) :
    ((completed (.ldBVx x) s).readMem (s.effAddr k)).toNat = n := by
  have hbyte : (completed (.ldBVx x) s).readMem (s.effAddr k) = (decimalDigits s.V[x])[k] :=
    readMem_storeBytes_inside s hs (storeRange_le h) hk
  rw [hbyte, hdigit, BitVec.toNat_ofNat]
  exact Nat.mod_eq_of_lt hn

/-- Settles O29: the whole range is checked before the first of the three digits is stored. -/
theorem storeDecimalDigits : Obligations.StoreDecimalDigits := by
  refine fun x s hs => ⟨fun h => ⟨_, execLdBVx_ok h, rfl, ?_, ?_, ?_, fun _ => readMem_storeFromI_outside rfl⟩,
    checkRange_fault⟩
  all_goals exact readMem_completed_ldBVx_nat hs h (by decide) rfl (by omega)

/-- Settles O30: the whole range is checked before the first register is stored. -/
theorem storeRegistersFromI : Obligations.StoreRegistersFromI :=
  fun x s hs => ⟨fun h => ⟨_, execLdMemVx_ok h, rfl, readMem_completed_ldMemVx hs h,
    fun _ => readMem_storeFromI_outside (regsUpTo_length s x)⟩, checkRange_fault⟩

/-! ### The load (R145) -/

/-- After LD Vx, [I] the registers up to `x` hold the bytes from `I` on, and the others what they held. -/
theorem writes_ldVxMem_getElem (x k : Reg) (s : State) :
    (writes (.ldVxMem x) s).V[k] = if k.val ≤ x.val then s.readMem (s.effAddr k.val) else s.V[k] := by
  refine (loadRegs_getElem s.V 0 (s.readBytes (s.effAddr 0) (x.val + 1)) k.val k.isLt).trans ?_
  simp only [readBytes_length, readBytes_getElem]
  by_cases hk : k.val ≤ x.val
  · rw [dif_pos (by omega), if_pos hk]
    rfl
  · rw [dif_neg (by omega), if_neg hk]
    rfl

/-- Settles O31: the whole range is checked before the first register is loaded. -/
theorem loadRegistersFromI : Obligations.LoadRegistersFromI :=
  fun x s => ⟨fun h => ⟨_, checkRange_ok h, rfl, fun k => writes_ldVxMem_getElem x k s⟩, checkRange_fault⟩

end Sys2Proof.Proofs

/-! PROOFS. The family 44_display.md: CLS and the sprite draw (R150, R151). -/

namespace Sys2Proof.Proofs

open Sys2Proof.Machine Sys2Proof.Safety

/-- Settles O34: every CLS leaves the blank screen. -/
theorem clearTurnsEveryPixelOff : Obligations.ClearTurnsEveryPixelOff :=
  ⟨fun s => ⟨completed .cls s, rfl, rfl, blankScreen_pixel, rfl⟩, fun _ => decodeWord_eq_some_iff_eq rfl⟩

/-! ### What drawing does to a canvas (R151)

Each loop of the draw flips a set of pixels once: one pixel, a row, the sprite. Sets drawn one after the other are disjoint,
since 8 columns do not wrap around 64 and 15 rows do not wrap around 32, so no pixel is flipped back. -/

/-- Drawing from `c` to `c'` flips exactly the pixels of `P`, and reports those of them that were on. -/
structure Flips (P : Fin 32 → Fin 64 → Prop) (c c' : Canvas) : Prop where
  flipped : ∀ (j : Fin 32) (k : Fin 64), P j k → c'.fb[j][k] = !c.fb[j][k]
  kept : ∀ (j : Fin 32) (k : Fin 64), ¬ P j k → c'.fb[j][k] = c.fb[j][k]
  collision : c'.collision = true ↔ c.collision = true ∨ ∃ (j : Fin 32) (k : Fin 64), P j k ∧ c.fb[j][k] = true

namespace Flips

variable {P Q : Fin 32 → Fin 64 → Prop} {c c' c'' : Canvas}

theorem congr (h : Flips P c c') (hPQ : ∀ j k, P j k ↔ Q j k) : Flips Q c c' := by
  obtain rfl : P = Q := funext fun j => funext fun k => propext (hPQ j k)
  exact h

theorem refl (hP : ∀ j k, ¬ P j k) (c : Canvas) : Flips P c c where
  flipped j k h := absurd h (hP j k)
  kept _ _ _ := rfl
  collision := by simp [hP]

/-- Disjoint sets drawn one after the other. -/
theorem trans (hP : Flips P c c') (hQ : Flips Q c' c'') (hdisj : ∀ j k, P j k → ¬ Q j k) :
    Flips (fun j k => P j k ∨ Q j k) c c'' where
  flipped j k h := by
    obtain h | h := h
    · rw [hQ.kept j k (hdisj j k h), hP.flipped j k h]
    · rw [hQ.flipped j k h, hP.kept j k fun hp => hdisj j k hp h]
  kept j k h := by
    obtain ⟨hp, hq⟩ := not_or.1 h
    rw [hQ.kept j k hq, hP.kept j k hp]
  collision := by
    have hlit (j : Fin 32) (k : Fin 64) : Q j k ∧ c'.fb[j][k] = true ↔ Q j k ∧ c.fb[j][k] = true :=
      and_congr_right fun hq => by rw [hP.kept j k fun hp => hdisj j k hp hq]
    simp only [hQ.collision, hP.collision, hlit, or_and_right, exists_or, or_assoc]

/-- A set flipped, and flipped again on the screen that left, restores the screen. -/
theorem twice {d d' : Canvas} (h : Flips P c c') (h' : Flips P d d') (hd : d.fb = c'.fb) : d'.fb = c.fb := by
  refine Vector.ext fun j hj => Vector.ext fun k hk => ?_
  show d'.fb[(⟨j, hj⟩ : Fin 32)][(⟨k, hk⟩ : Fin 64)] = c.fb[(⟨j, hj⟩ : Fin 32)][(⟨k, hk⟩ : Fin 64)]
  by_cases hp : P ⟨j, hj⟩ ⟨k, hk⟩
  · rw [h'.flipped _ _ hp, hd, h.flipped _ _ hp, Bool.not_not]
  · rw [h'.kept _ _ hp, hd, h.kept _ _ hp]

end Flips

theorem plot_flips (c : Canvas) (x y : Nat) :
    Flips (fun j k => x % 64 = k.val ∧ y % 32 = j.val) c (plot c x y) where
  flipped j k h := by
    rw [plot_pixel, decide_eq_true h.1, decide_eq_true h.2, Bool.and_self, Bool.xor_true]
  kept j k h := by
    rw [plot_pixel, ← Bool.decide_and, decide_eq_false (mt And.symm h), Bool.xor_false]
  collision := by
    rw [plot_collision, Bool.or_eq_true]
    refine or_congr_right ⟨fun hlit => ⟨⟨y % 32, Nat.mod_lt y (by decide)⟩, ⟨x % 64, Nat.mod_lt x (by decide)⟩,
      ⟨rfl, rfl⟩, hlit⟩, ?_⟩
    rintro ⟨⟨_, _⟩, ⟨_, _⟩, ⟨rfl, rfl⟩, hlit⟩
    exact hlit

/-! ### A row -/

/-- The first `cols` columns of a sprite row, as `drawRow` draws all eight. -/
def drawCols (px y : Nat) (b : Byte) (cols : Nat) (c : Canvas) : Canvas :=
  (List.range cols).foldl (fun c col => if b.getLsbD (7 - col) then plot c (px + col) y else c) c

theorem drawRow_eq_drawCols (px y : Nat) (b : Byte) (c : Canvas) : drawRow px y b c = drawCols px y b 8 c := rfl

theorem drawCols_succ (px y : Nat) (b : Byte) (cols : Nat) (c : Canvas) :
    drawCols px y b (cols + 1) c =
      if b.getLsbD (7 - cols) then plot (drawCols px y b cols c) (px + cols) y else drawCols px y b cols c := by
  simp [drawCols, List.range_succ]

/-- One of the first `cols` columns of the row `b` at `(px, y)` has a set bit for pixel `(k, j)`. -/
def ColsCover (px y : Nat) (b : Byte) (cols : Nat) (j : Fin 32) (k : Fin 64) : Prop :=
  ∃ col < cols, b.getLsbD (7 - col) = true ∧ (px + col) % 64 = k.val ∧ y % 32 = j.val

theorem colsCover_succ {px y : Nat} {b : Byte} {cols : Nat} {j : Fin 32} {k : Fin 64} :
    ColsCover px y b (cols + 1) j k ↔ ColsCover px y b cols j k ∨
      (b.getLsbD (7 - cols) = true ∧ (px + cols) % 64 = k.val ∧ y % 32 = j.val) :=
  Nat.exists_lt_succ_right

/-- Eight columns do not wrap around the 64 of the screen, so every column plots a pixel of its own. -/
theorem drawCols_flips (px y : Nat) (b : Byte) {cols : Nat} (hcols : cols ≤ 8) (c : Canvas) :
    Flips (ColsCover px y b cols) c (drawCols px y b cols c) := by
  induction cols with
  | zero => exact Flips.refl (fun _ _ ⟨_, hcol, _⟩ => Nat.not_lt_zero _ hcol) c
  | succ cols ih =>
    have hdone := ih (by omega)
    rw [drawCols_succ]
    split <;> rename_i hbit
    · refine (hdone.trans (plot_flips _ (px + cols) y) ?_).congr fun j k => ?_
      · rintro j k ⟨col, hcol, -, hx, -⟩ ⟨hx', -⟩
        omega
      · rw [colsCover_succ, eq_true hbit, true_and]
    · exact hdone.congr fun j k => by rw [colsCover_succ, eq_false hbit, false_and, or_false]

/-! ### The rows -/

/-- A row of the sprite `bs` at `(px, y)` has a set bit for pixel `(k, j)`. -/
def RowsCover (px y : Nat) (bs : List Byte) (j : Fin 32) (k : Fin 64) : Prop :=
  ∃ row b, bs[row]? = some b ∧ ColsCover px (y + row) b 8 j k

theorem rowsCover_cons {px y : Nat} {b : Byte} {bs : List Byte} {j : Fin 32} {k : Fin 64} :
    RowsCover px y (b :: bs) j k ↔ ColsCover px y b 8 j k ∨ RowsCover px (y + 1) bs j k := by
  constructor
  · rintro ⟨_ | row, b', hrow, hcover⟩
    · obtain rfl := Option.some.inj hrow
      exact .inl hcover
    · exact .inr ⟨row, b', hrow, by rwa [Nat.add_assoc, Nat.add_comm 1]⟩
  · rintro (hcover | ⟨row, b', hrow, hcover⟩)
    · exact ⟨0, b, rfl, hcover⟩
    · exact ⟨row + 1, b', hrow, by rwa [Nat.add_assoc, Nat.add_comm 1] at hcover⟩

/-- At most 32 rows do not wrap around the screen, so every row falls on a line of its own. -/
theorem drawRows_flips (px y : Nat) {bs : List Byte} (hrows : bs.length ≤ 32) (c : Canvas) :
    Flips (RowsCover px y bs) c (drawRows px y bs c) := by
  induction bs generalizing y c with
  | nil => exact Flips.refl (fun _ _ ⟨_, _, hrow, _⟩ => nomatch hrow) c
  | cons b bs ih =>
    rw [List.length_cons] at hrows
    refine ((drawCols_flips px y b le_rfl c).trans (ih (y + 1) (by omega) _) ?_).congr fun _ _ => rowsCover_cons.symm
    rintro j k ⟨-, -, -, -, hy⟩ ⟨row, b', hrow, -, -, -, -, hy'⟩
    have hlt : row < bs.length := (List.getElem?_eq_some_iff.1 hrow).1
    omega

/-! ### The sprite -/

theorem readBytes_getElem?_eq_some {s : State} {n row : Nat} {b : Byte} :
    (s.readBytes (s.effAddr 0) n)[row]? = some b ↔ row < n ∧ s.readMem (s.effAddr row) = b := by
  simp [List.getElem?_eq_some_iff, readBytes_getElem, State.effAddr]

theorem rowsCover_readBytes_iff {s : State} {x y : Reg} {n : Nat} {j : Fin 32} {k : Fin 64} :
    RowsCover s.V[x].toNat s.V[y].toNat (s.readBytes (s.effAddr 0) n) j k ↔ SpriteCovers s x y n j k := by
  constructor
  · rintro ⟨row, b, hrow, col, hcol, hbit, hx, hy⟩
    obtain ⟨hlt, rfl⟩ := readBytes_getElem?_eq_some.1 hrow
    exact ⟨row, col, hlt, hcol, hx, hy, hbit⟩
  · rintro ⟨row, col, hlt, hcol, hx, hy, hbit⟩
    exact ⟨row, _, readBytes_getElem?_eq_some.2 ⟨hlt, rfl⟩, col, hcol, hbit, hx, hy⟩

/-- The canvas that DRW leaves: the screen and whether a pixel went off. -/
def drwCanvas (x y : Reg) (n : Nat) (s : State) : Canvas :=
  drawRows s.V[x].toNat s.V[y].toNat (s.readBytes (s.effAddr 0) n) { fb := s.fb, collision := false }

theorem drwCanvas_flips (x y : Reg) (n : Fin 16) (s : State) :
    Flips (SpriteCovers s x y n.val) { fb := s.fb, collision := false } (drwCanvas x y n.val s) := by
  refine (drawRows_flips _ _ ?_ _).congr fun _ _ => rowsCover_readBytes_iff
  rw [readBytes_length]
  omega

/-- DRW draws its canvas and writes the collision to VF. -/
theorem completed_drw (x y : Reg) (n : Fin 16) (s : State) :
    completed (.drw x y n) s = { s with
      fb := (drwCanvas x y n.val s).fb
      V := s.V.set 15 (flagByte (drwCanvas x y n.val s).collision)
      pc := s.pc + 2 } := rfl

theorem completed_drw_vf (x y : Reg) (n : Fin 16) (s : State) :
    (completed (.drw x y n) s).V[(15 : Reg)] = flagByte (drwCanvas x y n.val s).collision :=
  Vector.getElem_set_self (by decide)

/-- DRW completes when it has no rows or its last row exists. -/
theorem ownFault_drw_none {x y : Reg} {n : Fin 16} {s : State} :
    ownFault (.drw x y n) s = none ↔ n.val = 0 ∨ s.effAddr (n.val - 1) ≤ 4095 := by
  simp only [ownFault, State.effAddr, ite_eq_right_iff, reduceCtorEq, imp_false]
  omega

theorem execDrw_ok {x y : Reg} {n : Fin 16} {s : State} (h : n.val = 0 ∨ s.effAddr (n.val - 1) ≤ 4095) :
    exec (.drw x y n) s = .next (completed (.drw x y n) s) := by
  rw [exec_eq, outcome, ownFault_drw_none.2 h, Option.elim_none]

theorem execDrw_fault {x y : Reg} {n : Fin 16} {s : State} (hn : n.val ≠ 0) (h : 4095 < s.effAddr (n.val - 1)) :
    exec (.drw x y n) s = .next (s.latch (.addressOutOfRange .memRead (s.effAddr (n.val - 1)))) :=
  (if_neg hn).trans (checkRange_fault h)

/-- Settles O35: the canvas starts without a collision, so VF reports the covered pixels that were on. -/
theorem drawXorsTheWrappedSprite : Obligations.DrawXorsTheWrappedSprite := by
  refine fun x y n s => ⟨fun h => ?_, execDrw_fault⟩
  have hflips := drwCanvas_flips x y n s
  have hcollision := hflips.collision
  rw [or_iff_right Bool.false_ne_true] at hcollision
  refine ⟨_, execDrw_ok h, ?_, hflips.flipped, hflips.kept, fun hlit => ?_, fun hdark => ?_⟩
  · rw [completed_drw_vf]
    exact completed_drw x y n s
  · rw [completed_drw_vf, hcollision.2 hlit]
    rfl
  · rw [completed_drw_vf, Bool.eq_false_iff.2 (mt hcollision.1 hdark)]
    rfl

/-! ### The same sprite drawn twice -/

/-- A draw changes neither memory nor `I`, so from the same coordinates the same sprite covers the same pixels. -/
theorem spriteCovers_completed_drw {x y : Reg} {n : Fin 16} {s : State}
    (hx : (completed (.drw x y n) s).V[x] = s.V[x]) (hy : (completed (.drw x y n) s).V[y] = s.V[y]) :
    SpriteCovers (completed (.drw x y n) s) x y n.val = SpriteCovers s x y n.val := by
  unfold SpriteCovers
  rw [hx, hy]
  rfl

/-- Settles O36: every covered pixel is flipped twice. -/
theorem drawingTwiceRestoresTheScreen : Obligations.DrawingTwiceRestoresTheScreen := by
  intro x y n s t hrange ht hx hy
  obtain rfl : completed (.drw x y n) s = t := Host.Outcome.next.inj ((execDrw_ok hrange).symm.trans ht)
  have hagain := drwCanvas_flips x y n (completed (.drw x y n) s)
  rw [spriteCovers_completed_drw hx hy] at hagain
  exact ⟨_, execDrw_ok hrange, (drwCanvas_flips x y n s).twice hagain rfl⟩

end Sys2Proof.Proofs

/-! PROOFS. The family 45_keypad_timers.md: the skips on a key, the wait for a key, and the two timers (R160 to R165). -/

namespace Sys2Proof.Proofs

open Sys2Proof.Machine

/-- A word whose format fixes the first nibble and the low byte, by the X nibble between them (30_encoding.md R83). -/
theorem decodeWord_eq_some_iff_digitsXFF {w : Word} {i : Instr} (op : BitVec 4) (code : Byte) {x : Reg}
    (hi : significantBits i = 0xFFFF) (he : encode i = encodeXFF op x code) :
    decodeWord w = some i ↔ w.toNat = 0x1000 * op.toNat + code.toNat + 0x100 * x.val := by
  rw [decodeWord_eq_some_iff_digitsXNN op hi he, Nat.add_right_comm]

/-! ### The skips on a key (R160, R161) -/

theorem keyIndex_eq_some {b : Byte} {k : Fin 16} (h : b.toNat = k.val) : keyIndex b = some k := by
  rw [keyIndex_some (h.trans_lt k.isLt)]
  exact congrArg some (Fin.ext h)

theorem skipOnKey_of_key {x : Reg} {s : State} {k : Fin 16} (h : s.V[x].toNat = k.val) (pressed : Bool) :
    skipOnKey pressed x s = .next { s with pc := if s.key[k] = pressed then s.pc + 4 else s.pc + 2 } := by
  simp only [skipOnKey, keyIndex_eq_some h, skipIf_eq, beq_iff_eq]

theorem skipOnKey_fault {x : Reg} {s : State} (h : 15 < s.V[x].toNat) (pressed : Bool) :
    skipOnKey pressed x s = .next (s.latch (.addressOutOfRange .keyIndex s.V[x].toNat)) := by
  rw [skipOnKey, keyIndex_none h]
  rfl

/-- Settles O37: SKNP asks for the key released, so its two targets are those of SKP exchanged. -/
theorem skipOnKey : Obligations.SkipOnKey := by
  refine fun x s => ⟨fun k hk => ⟨skipOnKey_of_key hk true, (skipOnKey_of_key hk false).trans ?_⟩,
    fun h => ⟨skipOnKey_fault h true, skipOnKey_fault h false⟩⟩
  simp only [← Bool.not_eq_true, ite_not]

/-! ### The wait for a key (R162) -/

theorem lowestPressed_eq_some {key : Vector Bool 16} {k : Fin 16} (hk : key[k] = true)
    (hlow : ∀ j : Fin 16, j < k → key[j] = false) : lowestPressed key = some k.val := by
  refine List.findIdx?_eq_some_iff_getElem.2 ⟨by simp, by simpa using hk, fun j hj => ?_⟩
  simpa using hlow ⟨j, by omega⟩ hj

theorem lowestPressed_eq_none {key : Vector Bool 16} (h : ∀ k : Fin 16, key[k] = false) : lowestPressed key = none := by
  refine List.findIdx?_eq_none_iff.2 fun pressed hp => ?_
  obtain ⟨k, hk, rfl⟩ := Vector.mem_iff_getElem.1 (Vector.mem_toList_iff.1 hp)
  exact h ⟨k, hk⟩

theorem execLdVxK_pressed {s : State} {k : Nat} (h : lowestPressed s.key = some k) (x : Reg) :
    exec (.ldVxK x) s = .next { s with V := s.V.set x (BitVec.ofNat 8 k), pc := s.pc + 2 } := by
  rw [exec, execLdVxK, h]
  rfl

theorem execLdVxK_waits {s : State} (h : lowestPressed s.key = none) (x : Reg) : exec (.ldVxK x) s = .next s := by
  rw [exec, execLdVxK, h]

/-- Settles O38: the scan finds the lowest pressed key; where it finds none, the instruction answers the state it was
given, and so does a step that fetches it, whatever its byte. -/
theorem keyWaitTakesTheLowestKey : Obligations.KeyWaitTakesTheLowestKey := by
  refine ⟨fun x s => ⟨fun k hk hlow => execLdVxK_pressed (lowestPressed_eq_some hk hlow) x,
      fun hnone => execLdVxK_waits (lowestPressed_eq_none hnone) x⟩,
    fun x s hf hpc hd hnone => ?_, fun _ _ => decodeWord_eq_some_iff_digitsXFF 0xF 0x0A rfl rfl⟩
  have hwait : exec (.ldVxK x) s = .next s := execLdVxK_waits (lowestPressed_eq_none hnone) x
  exact ⟨(runStep_legal hf hpc hd).trans hwait, fun _ => (runStep_legal hf hpc hd).trans hwait⟩

/-! ### The timers (R163 to R165) -/

/-- Settles O39: each copies one byte; the words differ in the low byte. -/
theorem delayTimerInstructionsCopy : Obligations.DelayTimerInstructionsCopy :=
  ⟨fun _ _ => ⟨rfl, rfl⟩, fun _ _ => ⟨decodeWord_eq_some_iff_digitsXFF 0xF 0x07 rfl rfl,
    decodeWord_eq_some_iff_digitsXFF 0xF 0x15 rfl rfl⟩⟩

/-- The level output is on while the sound timer is not 0 (60_exceptions.md R185). -/
theorem tone_iff (s : State) : s.tone = true ↔ s.ST.toNat ≠ 0 := by
  rw [State.tone, bne_iff_ne, ne_eq, ← BitVec.toNat_inj]
  rfl

/-- Settles O40: the tone is read off the sound timer just written. -/
theorem soundTimerInstructionSetsTone : Obligations.SoundTimerInstructionSetsTone :=
  fun _ _ => ⟨_, rfl, rfl, tone_iff _⟩

end Sys2Proof.Proofs

/-! PROOFS. The family 60_exceptions.md: faults and the latch, the host operations, schedules of them, and the random byte
(R170 to R192). -/

namespace Sys2Proof.Proofs

open Sys2Proof.Machine Sys2Proof.Safety

/-! ### An instruction that is given its byte (R192) -/

/-- Given a byte, RND masks it; every other instruction does what it does with none given. -/
theorem execWith_cases (rand : Byte) (i : Instr) (s : State) :
    (∃ x nn, i = .rnd x nn ∧ execWith rand i s = .next { s with V := s.V.set x (rand &&& nn), pc := s.pc + 2 }) ∨
    ((∀ x nn, i ≠ .rnd x nn) ∧ execWith rand i s = exec i s) := by
  by_cases hi : ∃ x nn, i = .rnd x nn
  · obtain ⟨x, nn, rfl⟩ := hi
    exact .inl ⟨x, nn, rfl, execWith_rnd rand x nn s⟩
  · have hi : ∀ x nn, i ≠ .rnd x nn := fun x nn h => hi ⟨x, nn, h⟩
    exact .inr ⟨hi, execWith_other rand hi s⟩

theorem execWith_total (rand : Byte) (i : Instr) (s : State) : ∃ t, execWith rand i s = .next t := by
  obtain ⟨x, nn, -, h⟩ | ⟨-, h⟩ := execWith_cases rand i s
  · exact ⟨_, h⟩
  · exact ⟨_, h.trans (exec_eq i s)⟩

/-! ### Any step, whatever executes -/

section
variable {execute execute' : Instr → Result} {s t : State}

theorem runStep_total (htotal : ∀ i, ∃ t, execute i = .next t) : ∃ t, runStep execute s = .next t := by
  by_cases hf : s.fault = none
  · rw [runStep_running hf]
    cases fetchInstr s with
    | error f => exact ⟨s.latch f, rfl⟩
    | ok i => exact htotal i
  · exact ⟨s, runStep_faulted hf⟩

/-- What a fault latched and what every instruction executed leave true, a step of a running machine leaves true. -/
theorem runStep_running_keeps {P : State → Prop} (hf : s.fault = none) (hlatch : ∀ f, P (s.latch f))
    (hexecute : s.pc.toNat ≤ 4094 → ∀ i t, execute i = .next t → P t) (h : runStep execute s = .next t) : P t := by
  obtain ⟨hfault, -⟩ | ⟨-, -, rfl⟩ | ⟨-, -, -, rfl⟩ | ⟨-, hpc, i, -, hi⟩ := runStep_cases h
  · exact absurd hf hfault
  · exact hlatch _
  · exact hlatch _
  · exact hexecute hpc i t hi

/-- A step depends on what executes only in the instruction that it fetches. -/
theorem runStep_congr (h : ∀ i, s.fault = none → s.pc.toNat ≤ 4094 →
    decodeWord (s.wordAt s.pc.toNat) = some i → execute i = execute' i) :
    runStep execute s = runStep execute' s := by
  by_cases hf : s.fault = none
  · by_cases hpc : s.pc.toNat ≤ 4094
    · cases hd : decodeWord (s.wordAt s.pc.toNat) with
      | none => rw [runStep_illegal hf hpc hd, runStep_illegal hf hpc hd]
      | some i => rw [runStep_legal hf hpc hd, runStep_legal hf hpc hd, h i hf hpc hd]
    · rw [runStep_fetch_fault hf (by omega), runStep_fetch_fault hf (by omega)]
  · rw [runStep_faulted hf, runStep_faulted hf]

end

/-! ### Faults and the latch (R172, R173) -/

theorem writes_fault (i : Instr) (s : State) : (writes i s).fault = s.fault := by cases i <;> rfl

/-- Settles O10: an instruction latches its own fault or completes, and a completion leaves the latch as it was. -/
theorem instructionsFaultExactlyAsListed : Obligations.InstructionsFaultExactlyAsListed := by
  intro i s hf
  refine ⟨outcome i s, exec_eq i s, ?_⟩
  cases h : ownFault i s with
  | none => rw [outcome, h]; exact (writes_fault i s).trans hf
  | some f => rw [outcome, h]; rfl

/-- `t` differs from `s` in the latch only, if a fault is latched in it. -/
def FaultsPrecisely (s t : State) : Prop := t.fault ≠ none → t = { s with fault := t.fault }

theorem latch_faultsPrecisely (s : State) (f : Fault) : FaultsPrecisely s (s.latch f) := fun _ => rfl

theorem faultsPrecisely_of_running {s t : State} (h : t.fault = none) : FaultsPrecisely s t := fun ht => absurd h ht

theorem exec_faultsPrecisely {i : Instr} {s t : State} (hf : s.fault = none) (h : exec i s = .next t) :
    FaultsPrecisely s t := by
  obtain ⟨f, -, rfl⟩ | ⟨-, rfl⟩ := exec_cases h
  · exact latch_faultsPrecisely s f
  · exact faultsPrecisely_of_running ((writes_fault i s).trans hf)

theorem execWith_faultsPrecisely {rand : Byte} {i : Instr} {s t : State} (hf : s.fault = none)
    (h : execWith rand i s = .next t) : FaultsPrecisely s t := by
  obtain ⟨x, nn, -, hi⟩ | ⟨-, hi⟩ := execWith_cases rand i s
  · rw [hi] at h
    cases h
    exact faultsPrecisely_of_running hf
  · exact exec_faultsPrecisely hf (hi.symm.trans h)

/-- Settles O9: the fault of the fetch, of the decoder or of the instruction is latched in the state as it was. -/
theorem faultEntryIsPrecise : Obligations.FaultEntryIsPrecise := by
  rintro s t hf (h | ⟨rand, h⟩)
  · exact runStep_running_keeps hf (latch_faultsPrecisely s) (fun _ _ _ => exec_faultsPrecisely hf) h
  · exact runStep_running_keeps hf (latch_faultsPrecisely s) (fun _ _ _ => execWith_faultsPrecisely hf) h

/-! ### Host operations in sequence (R181) -/

theorem perform_total (op : HostOp) (s : State) : ∃ t, perform op s = .next t := by
  cases op
  case step rand => exact runStep_total fun i => execWith_total rand i s
  all_goals exact ⟨_, rfl⟩

theorem runSchedule_cons {op : HostOp} {s t : State} (h : perform op s = .next t) (ops : List HostOp) :
    runSchedule (op :: ops) s = runSchedule ops t := by
  rw [runSchedule, h]

/-- What every host operation keeps, every schedule keeps, and it runs to its end. -/
theorem runSchedule_keeps {P : State → Prop} (hP : ∀ op s t, P s → perform op s = .next t → P t) (ops : List HostOp)
    {s : State} (hs : P s) : ∃ t, runSchedule ops s = .next t ∧ P t := by
  induction ops generalizing s with
  | nil => exact ⟨s, rfl, hs⟩
  | cons op ops ih =>
    obtain ⟨u, hu⟩ := perform_total op s
    rw [runSchedule_cons hu]
    exact ih (hP op s u hs hu)

/-- Settles O8: every operation answers a next state, so the next one runs. -/
theorem everyScheduleHasAResult : Obligations.EveryScheduleHasAResult := by
  intro ops s
  obtain ⟨t, ht, -⟩ := runSchedule_keeps (P := fun _ => True) (fun _ _ _ _ _ => trivial) ops (s := s) trivial
  exact ⟨t, ht⟩

/-- With a fault latched every operation but the two that reset is ignored (R174, R175). -/
theorem perform_faulted {op : HostOp} {s : State} (hf : s.fault ≠ none) (hreset : op ≠ .reset)
    (hinit : op ≠ .initializeVM) : perform op s = .next s := by
  cases op
  case initializeVM => exact absurd rfl hinit
  case reset => exact absurd rfl hreset
  case load bytes => exact congrArg _ (if_neg (mt (running_iff s).1 hf))
  case setKey k pressed => exact congrArg _ (setKeyOp_faulted hf k pressed)
  case step rand => exact stepWith_faulted rand hf
  case tickTimers => exact congrArg _ (tickOp_faulted hf)
  case display => rfl

/-- Settles O11: each operation of the schedule leaves the faulted machine to the next one as it was. -/
theorem faultedMachineIgnoresAllButReset : Obligations.FaultedMachineIgnoresAllButReset := by
  intro ops s hf hops
  induction ops with
  | nil => rfl
  | cons op ops ih =>
    obtain ⟨⟨hreset, hinit⟩, hops⟩ := List.forall_mem_cons.1 hops
    exact (runSchedule_cons (perform_faulted hf hreset hinit) ops).trans (ih hops)

/-! ### Both invariants along a schedule (10_state.md R24, 20_memory.md R55) -/

/-- What holds of every state that a schedule reaches. -/
structure Invariants (s : State) : Prop where
  memory : MemoryCanonical s
  counter : CounterBounded s

theorem execWith_keeps_invariants {rand : Byte} {i : Instr} {s t : State} (hs : Invariants s) (hpc : s.pc.toNat ≤ 4094)
    (h : execWith rand i s = .next t) : Invariants t := by
  obtain ⟨x, nn, -, hi⟩ | ⟨-, hi⟩ := execWith_cases rand i s <;> rw [hi] at h
  · cases h
    obtain ⟨-, hstack⟩ := hs.counter
    exact ⟨hs.memory, nextPc_le hs.counter hpc (.rnd x nn), hstack⟩
  · exact ⟨exec_keeps_memoryCanonical hs.memory h, exec_keeps_counterBounded hs.counter hpc h⟩

theorem stepWith_keeps_invariants {rand : Byte} {s t : State} (hs : Invariants s) (h : stepWith rand s = .next t) :
    Invariants t := by
  by_cases hf : s.fault = none
  · exact runStep_running_keeps hf (fun _ => ⟨hs.memory, hs.counter⟩)
      (fun hpc _ _ => execWith_keeps_invariants hs hpc) h
  · rw [stepWith_faulted rand hf] at h
    cases h
    exact hs

/-- A load stores in range only: 3584 bytes from 0x200 on end at 4095 (70_reset_and_hazards.md R203). -/
theorem loadOp_keeps_invariants {s : State} (hs : Invariants s) (bytes : List Byte) : Invariants (s.loadOp bytes) := by
  obtain ⟨-, h⟩ | ⟨-, -, h⟩ | ⟨-, hlen, h⟩ := loadOp_cases s bytes <;> rw [h]
  · exact hs
  · exact ⟨hs.memory, hs.counter⟩
  · have hrange : 0x200 + bytes.length ≤ Config.memSize := by rw [Config.memSize]; omega
    exact ⟨storeBytes_wf s hs.memory hrange, hs.counter⟩

theorem setKeyOp_keeps_invariants {s : State} (hs : Invariants s) (k : Fin 16) (pressed : Bool) :
    Invariants (s.setKeyOp k pressed) := by
  by_cases hf : s.fault = none
  · rw [setKeyOp_running hf]
    exact ⟨hs.memory, hs.counter⟩
  · rwa [setKeyOp_faulted hf]

theorem tickOp_keeps_invariants {s : State} (hs : Invariants s) : Invariants s.tickOp := by
  by_cases hf : s.fault = none
  · rw [tickOp_running hf]
    exact ⟨hs.memory, hs.counter⟩
  · rwa [tickOp_faulted hf]

theorem resetOp_invariants (s : State) : Invariants s.resetOp :=
  ⟨resetWith_memoryCanonical s.glyph s.draws, resetWith_counterBounded s.glyph s.draws⟩

theorem perform_keeps_invariants (op : HostOp) (s t : State) (hs : Invariants s) (h : perform op s = .next t) :
    Invariants t := by
  cases op
  case step rand => exact stepWith_keeps_invariants hs h
  all_goals cases h
  case initializeVM | reset => exact resetOp_invariants s
  case load bytes => exact loadOp_keeps_invariants hs bytes
  case setKey k pressed => exact setKeyOp_keeps_invariants hs k pressed
  case tickTimers => exact tickOp_keeps_invariants hs
  case display => exact hs

/-- Settles O53: each host operation keeps both invariants. -/
theorem schedulesKeepInvariants : Obligations.SchedulesKeepInvariants := by
  intro ops s hmem hcounter
  obtain ⟨t, ht, hinv⟩ := runSchedule_keeps perform_keeps_invariants ops ⟨hmem, hcounter⟩
  exact ⟨t, ht, hinv.memory, hinv.counter⟩

/-! ### The count of free draws (R192)

The model's own `draws` decides which byte a step with none given draws, and nothing else: but for RND, changing it before
changes it after and nothing else. -/

/-- The count of draws replaced. -/
def setDraws (s : State) (n : Nat) : State := { s with draws := n }

theorem ownFault_setDraws (i : Instr) (s : State) (n : Nat) : ownFault i (setDraws s n) = ownFault i s := by
  cases i <;> rfl

theorem nextPc_setDraws (i : Instr) (s : State) (n : Nat) : nextPc i (setDraws s n) = nextPc i s := by
  cases i <;> rfl

theorem writes_setDraws {i : Instr} (hi : ∀ x nn, i ≠ .rnd x nn) (s : State) (n : Nat) :
    writes i (setDraws s n) = setDraws (writes i s) n := by
  cases i
  case rnd x nn => exact absurd rfl (hi x nn)
  all_goals rfl

theorem outcome_setDraws {i : Instr} (hi : ∀ x nn, i ≠ .rnd x nn) (s : State) (n : Nat) :
    outcome i (setDraws s n) = setDraws (outcome i s) n := by
  simp only [outcome, completed, ownFault_setDraws, nextPc_setDraws, writes_setDraws hi]
  cases ownFault i s <;> rfl

theorem outcome_draws {i : Instr} (hi : ∀ x nn, i ≠ .rnd x nn) (s : State) : (outcome i s).draws = s.draws := by
  rw [outcome]
  cases ownFault i s with
  | some f => rfl
  | none =>
    obtain h | ⟨x, nn, rfl⟩ := writes_draws i s
    · exact h
    · exact absurd rfl (hi x nn)

theorem exec_setDraws {i : Instr} (hi : ∀ x nn, i ≠ .rnd x nn) (s : State) (n : Nat) :
    exec i (setDraws s n) = .next (setDraws (outcome i s) n) := by
  rw [exec_eq, outcome_setDraws hi]

/-- Settles O26: RND alone counts a draw, and RND alone reads the byte, drawn or given. -/
theorem onlyRndUsesTheRandomByte : Obligations.OnlyRndUsesTheRandomByte :=
  fun i s n hi => ⟨outcome i s, exec_eq i s, outcome_draws hi s, exec_setDraws hi s n,
    fun rand => (execWith_other rand hi s).trans (exec_eq i s)⟩

/-- An instruction that is given its byte commutes with changing the count. -/
theorem execWith_setDraws {rand : Byte} {i : Instr} {s t : State} (h : execWith rand i s = .next t) (n : Nat) :
    execWith rand i (setDraws s n) = .next (setDraws t n) := by
  obtain ⟨x, nn, rfl, hi⟩ | ⟨hi, -⟩ := execWith_cases rand i s
  · rw [hi] at h
    cases h
    rfl
  · rw [execWith_other rand hi, exec_eq] at h
    cases h
    rw [execWith_other rand hi, exec_setDraws hi]

/-- An instruction that draws its byte is the instruction given that byte, but for the count. -/
theorem execWith_drawn {i : Instr} {s t : State} (h : exec i s = .next t) :
    execWith s.rand i s = .next (setDraws t s.draws) := by
  obtain ⟨x, nn, rfl, -⟩ | ⟨hi, heq⟩ := execWith_cases s.rand i s
  · cases h
    rfl
  · rw [exec_eq] at h
    cases h
    rw [heq, exec_eq, ← outcome_draws hi s]
    rfl

/-- Two steps agree but for the count, if what they execute does. -/
theorem runStep_setDraws {execute execute' : Instr → Result} {s t : State} {n : Nat}
    (hexecute : ∀ i u, execute i = .next u → execute' i = .next (setDraws u n)) (h : runStep execute s = .next t) :
    runStep execute' (setDraws s n) = .next (setDraws t n) := by
  obtain ⟨hf, rfl⟩ | ⟨hf, hpc, rfl⟩ | ⟨hf, hpc, hd, rfl⟩ | ⟨hf, hpc, i, hd, hi⟩ := runStep_cases h
  · exact runStep_faulted hf
  · exact runStep_fetch_fault hf hpc
  · exact runStep_illegal hf hpc hd
  · exact (runStep_legal (s := setDraws s n) hf hpc hd).trans (hexecute i t hi)

/-! ### The host's step (R180) -/

/-- Settles O54: a step depends on its byte only where it fetches RND. -/
theorem stepTakesTheRandomByteAsInput : Obligations.StepTakesTheRandomByteAsInput := by
  refine fun rand s => ⟨fun x nn hf hpc hd => ?_, fun hrnd => runStep_congr fun i hf hpc hd => ?_⟩
  · exact (runStep_legal hf hpc hd).trans (advance_setV (BitVec.toNat_and rand nn) x s)
  · refine execWith_other rand (fun x nn hi => hrnd ⟨x, nn, hf, hpc, ?_⟩) s
    rw [← hi]
    exact hd

/-- Settles O55: the byte of the current draw is the one that RND uses. -/
theorem freeStepIsAStepGivenSomeByte : Obligations.FreeStepIsAStepGivenSomeByte := by
  intro s
  obtain ⟨t, ht⟩ : ∃ t, step s = .next t := runStep_total fun i => ⟨_, exec_eq i s⟩
  exact ⟨t, ht, runStep_setDraws (n := s.draws) (fun _ _ => execWith_drawn) ht⟩

/-! ### Runs from reset (R192) -/

theorem loadOp_setDraws (s : State) (bytes : List Byte) (n : Nat) :
    (setDraws s n).loadOp bytes = setDraws (s.loadOp bytes) n := by
  obtain ⟨hf, h⟩ | ⟨hf, hlen, h⟩ | ⟨hf, hlen, h⟩ := loadOp_cases s bytes <;> rw [h]
  · exact if_neg (mt (running_iff _).1 hf)
  · exact (if_pos ((running_iff _).2 hf)).trans (if_pos hlen)
  · exact (if_pos ((running_iff _).2 hf)).trans (if_neg (Nat.not_lt.2 hlen))

theorem setKeyOp_setDraws (s : State) (k : Fin 16) (pressed : Bool) (n : Nat) :
    (setDraws s n).setKeyOp k pressed = setDraws (s.setKeyOp k pressed) n := by
  by_cases hf : s.fault = none
  · rw [setKeyOp_running hf]
    exact setKeyOp_running (s := setDraws s n) hf k pressed
  · rw [setKeyOp_faulted hf]
    exact setKeyOp_faulted (s := setDraws s n) hf k pressed

theorem tickOp_setDraws (s : State) (n : Nat) : (setDraws s n).tickOp = setDraws s.tickOp n := by
  by_cases hf : s.fault = none
  · rw [tickOp_running hf]
    exact tickOp_running hf
  · rw [tickOp_faulted hf]
    exact tickOp_faulted hf

/-- Every host operation commutes with changing the count, a step by the byte it is given. -/
theorem perform_setDraws {op : HostOp} {s t : State} (h : perform op s = .next t) (n : Nat) :
    perform op (setDraws s n) = .next (setDraws t n) := by
  cases op
  case step rand => exact runStep_setDraws (fun _ _ hi => execWith_setDraws hi n) h
  all_goals cases h
  case initializeVM | reset | display => rfl
  case load bytes => exact congrArg _ (loadOp_setDraws s bytes n)
  case setKey k pressed => exact congrArg _ (setKeyOp_setDraws s k pressed n)
  case tickTimers => exact congrArg _ (tickOp_setDraws s n)

theorem runSchedule_setDraws {ops : List HostOp} {s t : State} (h : runSchedule ops s = .next t) (n : Nat) :
    runSchedule ops (setDraws s n) = .next (setDraws t n) := by
  induction ops generalizing s with
  | nil => cases h; rfl
  | cons op ops ih =>
    obtain ⟨u, hu⟩ := perform_total op s
    rw [runSchedule_cons hu] at h
    exact (runSchedule_cons (perform_setDraws hu n) ops).trans (ih h)

/-- With one glyph table, two resets differ in the count only. -/
theorem resetOp_eq_setDraws {s s' : State} (h : s.glyph = s'.glyph) : s'.resetOp = setDraws s.resetOp s'.draws := by
  rw [State.resetOp, State.resetOp, h]
  rfl

/-- Settles O56: the two runs start from reset states that differ in the count, and no operation lets it decide more. -/
theorem resetRunsAreDetermined : Obligations.ResetRunsAreDetermined := by
  intro ops s s' hglyph
  obtain ⟨t, ht⟩ := everyScheduleHasAResult ops s.resetOp
  refine ⟨t, ht, ?_⟩
  calc runSchedule (.reset :: ops) s'
      = runSchedule ops (setDraws s.resetOp s'.draws) := by
        rw [runSchedule_cons (s := s') (op := .reset) rfl, resetOp_eq_setDraws hglyph]
    _ = .next (setDraws t s'.draws) := runSchedule_setDraws ht s'.draws

/-! ### Keys, timers, display (R182, R183, R186) -/

/-- Settles O46: a running machine writes one flag, a faulted one nothing. -/
theorem setKeySetsOneFlag : Obligations.SetKeySetsOneFlag := by
  intro k pressed s
  refine ⟨s.setKeyOp k pressed, rfl, ?_⟩
  by_cases hf : s.fault = none
  · rw [setKeyOp_running hf]
    refine ⟨rfl, fun _ j => ?_, fun h => absurd hf h⟩
    simp only [Fin.getElem_fin, Vector.getElem_set, Fin.ext_iff, eq_comm]
  · rw [setKeyOp_faulted hf]
    exact ⟨rfl, fun h => absurd h hf, fun _ => rfl⟩

/-- Settles O47: `tickDown` is the truncated difference; LD DT and LD ST copy a register, and nothing else writes a
timer. -/
theorem tickDecrementsBothTimers : Obligations.TickDecrementsBothTimers := by
  refine ⟨fun s => ⟨s.tickOp, rfl, ?_⟩, fun i s t h => ?_⟩
  · by_cases hf : s.fault = none
    · rw [tickOp_running hf]
      exact ⟨rfl, fun _ => ⟨tickDown_nat s.DT, tickDown_nat s.ST⟩, fun h => absurd hf h⟩
    · rw [tickOp_faulted hf]
      exact ⟨rfl, fun h => absurd h hf, fun _ => rfl⟩
  · obtain ⟨f, -, rfl⟩ | ⟨-, rfl⟩ := exec_cases h
    · exact ⟨.inl rfl, .inl rfl⟩
    · refine ⟨(writes_DT i s).imp_right ?_, (writes_ST i s).imp_right ?_⟩
      · rintro ⟨x, rfl⟩
        exact ⟨x, rfl, rfl⟩
      · rintro ⟨x, rfl⟩
        exact ⟨x, rfl, rfl⟩

/-- The rows one after another are the framebuffer as one vector. -/
theorem display_eq_flatten (s : State) : s.display = s.fb.flatten.toList := by
  show s.display = (s.fb.toArray.map Vector.toArray).flatten.toList
  rw [State.display, List.flatMap_def, Array.toList_flatten, Array.toList_map, List.map_map]
  rfl

/-- Settles O48: entry `64 * j + k` of the flat vector is entry `k` of row `j`. -/
theorem displayReadsTheFramebuffer : Obligations.DisplayReadsTheFramebuffer := by
  refine fun s => ⟨rfl, ?_, fun j k => ?_⟩
  · rw [display_eq_flatten, Vector.length_toList]
  · have hindex : 64 * j.val + k.val < 32 * 64 := by omega
    have hrow : (64 * j.val + k.val) / 64 = j.val := by omega
    have hcol : (64 * j.val + k.val) % 64 = k.val := by omega
    rw [display_eq_flatten, Vector.getElem?_toList, Vector.getElem?_eq_getElem hindex, Vector.getElem_flatten]
    simp only [hrow, hcol, Fin.getElem_fin]

end Sys2Proof.Proofs

/-! PROOFS. The family 70_reset_and_hazards.md: loading a program, and the idle state (R203, R204, R211). -/

namespace Sys2Proof.Proofs

open Sys2Proof.Machine Sys2Proof.Safety

/-! ### The idle state (R211) -/

/-- The word that jumps to a 12-bit `pc` is the sum: the two have no bit in common. -/
theorem selfJumpWord_nat {pc : Word} (hpc : pc.toNat < 4096) : (0x1000 ||| pc : Word).toNat = 0x1000 + pc.toNat :=
  (BitVec.toNat_or ..).trans (Nat.two_pow_add_eq_or_of_lt (i := 12) hpc 1).symm

theorem idle_decodes_selfJump {s : State} (h : Idle s) :
    ∃ nnn : Addr12, nnn.toNat = s.pc.toNat ∧ decodeWord (s.wordAt s.pc.toNat) = some (.jp nnn) := by
  obtain ⟨-, hpc, hword⟩ := h
  obtain ⟨-, hdecode, -⟩ := jumpSetsPc
  have hlt : s.pc.toNat < 4096 := by omega
  have htarget : (BitVec.ofNat 12 s.pc.toNat).toNat = s.pc.toNat := Nat.mod_eq_of_lt hlt
  refine ⟨BitVec.ofNat 12 s.pc.toNat, htarget, (hdecode _ _).2 ?_⟩
  rw [hword, selfJumpWord_nat hlt, htarget]

/-- Settles O49: the step executes a jump to `pc`, which sets `pc` to what it is and uses no random byte. -/
theorem idleStateStaysIdle : Obligations.IdleStateStaysIdle := by
  intro s hidle
  obtain ⟨nnn, htarget, hdecode⟩ := idle_decodes_selfJump hidle
  obtain ⟨-, -, hself, -⟩ := jumpSetsPc
  obtain ⟨hf, hpc, -⟩ := hidle
  have hjump : exec (.jp nnn) s = .next s := hself nnn s htarget
  exact ⟨(runStep_legal hf hpc hdecode).trans hjump, fun _ => (runStep_legal hf hpc hdecode).trans hjump⟩

/-! ### Loading a program (R203, R204) -/

/-- Settles O45, by the latch and the length (`loadOp_cases`). -/
theorem loadCopiesBytesFrom0x200 : Obligations.LoadCopiesBytesFrom0x200 := by
  refine fun bytes s => ⟨s.loadOp bytes, rfl, ?_⟩
  obtain ⟨hf, h⟩ | ⟨hf, hlen, h⟩ | ⟨hf, hlen, h⟩ := loadOp_cases s bytes <;> rw [h]
  · exact ⟨fun _ => rfl, fun hrun => absurd hrun hf, fun hrun => absurd hrun hf⟩
  · exact ⟨fun hlatched => absurd hf hlatched, fun _ _ => rfl, fun _ hfits => absurd hlen (Nat.not_lt.2 hfits)⟩
  · have hrange : 0x200 + bytes.length ≤ Config.memSize := by rw [Config.memSize]; omega
    exact ⟨fun hlatched => absurd hf hlatched, fun _ hlong => absurd hlong (Nat.not_lt.2 hlen), fun _ _ =>
      ⟨rfl, fun _ => readMem_storeBytes_outside s, fun hcanonical _ => readMem_storeBytes_inside s hcanonical hrange⟩⟩

end Sys2Proof.Proofs

/-! PROOFS. The family 'other': the words that 95_test_vectors.md writes out. -/

namespace Sys2Proof.Proofs

/-- Settles O6: each word is the encoding of its instruction (`decodeWord_encode`), but for SHR's, which has a Y nibble
that is not 0 and agrees with the encoding on the significant bits (R92). -/
theorem writtenWordsDecode : Obligations.WrittenWordsDecode :=
  ⟨decodeWord_encode .ret, decodeWord_encode (.call 0x20E), decodeWord_encode (.seImm 10 0x42),
    decodeWord_encode (.subnReg 1 2), (decodeWord_eq_some_iff (i := .shr 1)).2 rfl, decodeWord_encode (.drw 0 1 2),
    decodeWord_encode (.sknp 5), decodeWord_encode (.ldMemVx 1)⟩

end Sys2Proof.Proofs
